-- ==== Sys2Proof/Word.lean ====
section
/-! DEFINITION. The word types of the core: 32-bit program words, 64-bit register values, 32-bit register keys and the
bytes of a program image. -/

namespace Sys2Proof

/-- A program word, opcode or operand: a 32-bit two's-complement integer (R7). Its signed value is `BitVec.toInt`. -/
abbrev Word := BitVec 32

/-- A register's value: a 64-bit two's-complement integer (R8). Its signed value is `BitVec.toInt`. -/
abbrev Value := BitVec 64

/-- The name of a register: a 32-bit unsigned key, so that there are `2^32` registers (R9). -/
abbrev RegKey := BitVec 32

/-- One byte of a program image held outside the core (R41); the core itself never accesses a byte. -/
abbrev Byte := BitVec 8

end Sys2Proof
end

