-- ==== Sys2Proof/Config.lean ====
section
/-! DEFINITION. What is fixed for a launch and is not changed by any step (R11, R12, R14, R36), the byte order of a
loader outside the core (R41), and the one value that the spec leaves free (R101). -/

namespace Sys2Proof

/-- `OPC` (R11): the word value of each of the five opcodes. `Opc.wf` of WellFormed.lean says that they are distinct. -/
structure Opc where
  load     : Word
  add      : Word
  subtract : Word
  print    : Word
  halt     : Word
  deriving DecidableEq, Repr

/-- `OPC_REF` (R11, R61): the reference binding, which `spec/opcode_table.json` uses. -/
def Opc.ref : Opc := { load := 0, add := 1, subtract := 2, print := 3, halt := 4 }

/-- `UNKNOWN_OPCODE_POLICY` (R12): what an opcode word outside `OPC` does. -/
inductive UnknownOpcodePolicy where
  /-- The legacy behaviour and the default: the word is skipped (R103). -/
  | ignore
  /-- The strict choice: the step raises UnknownOpcode (R104). -/
  | fault
  deriving DecidableEq, Repr

/-- The parameters that are fixed when a machine is constructed (R31, R36). -/
structure LaunchConfig where
  /-- `OPC` (R11). -/
  opc    : Opc
  /-- `UNKNOWN_OPCODE_POLICY` (R12). -/
  policy : UnknownOpcodePolicy
  /-- `DEBUG` (R14): the core takes `false`, and a model without the dump lines refuses `true` (R137). -/
  debug  : Bool
  deriving DecidableEq, Repr

/-- The reference configuration: `OPC_REF`, policy `Ignore`, `DEBUG = false` (R11, R12, R14). -/
def LaunchConfig.ref : LaunchConfig := { opc := Opc.ref, policy := .ignore, debug := false }

/-- `WORD_BYTE_ORDER` (R41): the byte order of a byte image that a loader outside the core turns into words. The spec
leaves it open, so every function that needs it takes it as an argument. -/
inductive ByteOrder where
  | little
  | big
  deriving DecidableEq, Repr

/-- `EXHAUST_LOG_TEXT` (R101, C3): the text of the exhaustion line on the log stream. The spec leaves it open, so it is
a free value: nothing can be proved of what it is. -/
opaque Config.exhaustLogText : List Char

end Sys2Proof
end

