-- ==== Sys2Proof/Syntax.lean ====
section
/-! DEFINITION. The instructions of the closed opcode set (R1, R55) and the items of the assembler notation (R66). -/

namespace Sys2Proof

/-- The five instructions, one constructor per row of `spec/opcode_table.json`. A register operand is the key it names
(R58); Load's immediate is the operand word itself, which the immediate loader widens (R86). A word outside `OPC` at an
opcode position is no instruction of the set: the engine handles it by the unknown-opcode policy (R63). -/
inductive Instr where
  /-- `Load reg value`, format ORI (R85). -/
  | load (reg : RegKey) (value : Word)
  /-- `Add dst src`, format ORR (R88). -/
  | add (dst src : RegKey)
  /-- `Subtract dst src`, format ORR (R89). -/
  | subtract (dst src : RegKey)
  /-- `Print reg`, format OR (R96). -/
  | print (reg : RegKey)
  /-- `Halt`, format O (R102). -/
  | halt
  deriving DecidableEq, Repr

/-- The length of an instruction in words (R56). -/
def Instr.length : Instr → Nat
  | .load _ _     => 3
  | .add _ _      => 3
  | .subtract _ _ => 3
  | .print _      => 2
  | .halt         => 1

/-- What decoding an opcode word answers (R65): one of the five opcodes, or a word that is none of them. -/
inductive DecodedOp where
  | load
  | add
  | subtract
  | print
  | halt
  | unknown (w : Word)
  deriving DecidableEq, Repr

/-- The register symbols of the assembler notation (R67). -/
inductive RegSymbol where
  | eax
  | ebx
  | ecx
  | edx
  deriving DecidableEq, Repr

/-- A register operand of the assembler notation: a symbol, or a decimal integer that is the word's value (R66). -/
inductive AsmReg where
  | symbol (r : RegSymbol)
  | number (n : Int)
  deriving DecidableEq, Repr

/-- One item of the assembler notation (R66); each item is exactly one instruction (R68). -/
inductive AsmItem where
  | load (reg : AsmReg) (value : Int)
  | add (dst src : AsmReg)
  | subtract (dst src : AsmReg)
  | print (reg : AsmReg)
  | halt
  deriving DecidableEq, Repr

end Sys2Proof
end

