-- ==== Sys2Proof/WellFormed.lean ====
section
/-! DEFINITION. The checks on what a launch is given. An `Instr` needs none: every 32-bit value is a legal operand word
and every key names a register (R58, R60), so the type of each operand already says all that the spec asks. What can be
ill formed is an opcode binding (R62), a configuration (R14) and an item of the assembler notation (R66). -/

namespace Sys2Proof

/-- The five opcode values as a list, in the order of R61. -/
def Opc.values (o : Opc) : List Word := [o.load, o.add, o.subtract, o.print, o.halt]

/-- The one constraint on `OPC`: its five values are distinct (R11, R62). -/
abbrev Opc.wf (o : Opc) : Prop := o.values.Nodup

/-- A configuration that the core admits: `OPC` is injective (R62) and `DEBUG = false` (R14, R137). -/
abbrev LaunchConfig.wf (c : LaunchConfig) : Prop := c.opc.wf ∧ c.debug = false

/-- A decimal integer that a 32-bit two's-complement word can hold (R66). -/
abbrev inWordRange (n : Int) : Prop := -2147483648 ≤ n ∧ n ≤ 2147483647

/-- A register operand of the notation: any symbol, or an integer that is a word's value (R66). -/
def AsmReg.wf : AsmReg → Bool
  | .symbol _ => true
  | .number n => decide (inWordRange n)

/-- An assembler item whose operands are all in range (R66). -/
def AsmItem.wf : AsmItem → Bool
  | .load r v     => r.wf && decide (inWordRange v)
  | .add d s      => d.wf && s.wf
  | .subtract d s => d.wf && s.wf
  | .print r      => r.wf
  | .halt         => true

end Sys2Proof
end

