-- ==== Sys2Proof/Decode.lean ====
section
/-! DEFINITION. Decoding a word sequence to an instruction (R53 to R65) and encoding an instruction as words (R69), both
over any binding `OPC`; and the host's `decodeTableWord`, under the reference binding that the opcode table uses. -/

namespace Sys2Proof

/-- `u32(w)` (R15, R58): the key that a register operand word names, its 32 bits read as an unsigned number.
UNVERIFIED: the width is D2 (log entry 15). -/
def u32 (w : Word) : RegKey := BitVec.ofNat 32 w.toNat

/-- The operand word that names a key: the inverse of `u32`, which is a bijection on 32-bit words (R88). -/
def regWord (k : RegKey) : Word := BitVec.ofNat 32 k.toNat

/-- `Decode` (R54, R65): the whole 32-bit word is compared with the five values of `OPC`. -/
def decodeOp (o : Opc) (w : Word) : DecodedOp :=
  if w = o.load then .load
  else if w = o.add then .add
  else if w = o.subtract then .subtract
  else if w = o.print then .print
  else if w = o.halt then .halt
  else .unknown w

/-- How many operand words follow the opcode word: the length of R56 less one. -/
def operandCount : DecodedOp → Nat
  | .load      => 2
  | .add       => 2
  | .subtract  => 2
  | .print     => 1
  | .halt      => 0
  | .unknown _ => 0

/-- The instruction made of a decoded opcode and its operand words in program order (R57); an operand that the format
does not have is not read. An unknown opcode makes none. -/
def assemble : DecodedOp → Word → Word → Option Instr
  | .load, r, v      => some (.load (u32 r) v)
  | .add, d, s       => some (.add (u32 d) (u32 s))
  | .subtract, d, s  => some (.subtract (u32 d) (u32 s))
  | .print, r, _     => some (.print (u32 r))
  | .halt, _, _      => some .halt
  | .unknown _, _, _ => none

/-- Why a word sequence is no instruction. -/
inductive DecodeError where
  /-- There is no word at all: the program is exhausted (R72). -/
  | noWord
  /-- The opcode is one of the five, and an operand word is missing (R108). -/
  | truncated
  /-- The first word is none of the five opcode values (R63). -/
  | unknownOpcode (w : Word)
  deriving DecidableEq, Repr

/-- Decode the instruction at the head of a word sequence: answer it and the words after it. Operands are taken by
position (R53, R60). -/
def decode (o : Opc) : List Word → Except DecodeError (Instr × List Word)
  | [] => .error .noWord
  | w :: rest =>
    match decodeOp o w, rest with
    | .load, r :: v :: rest'     => .ok (.load (u32 r) v, rest')
    | .add, d :: s :: rest'      => .ok (.add (u32 d) (u32 s), rest')
    | .subtract, d :: s :: rest' => .ok (.subtract (u32 d) (u32 s), rest')
    | .print, r :: rest'         => .ok (.print (u32 r), rest')
    | .halt, rest'               => .ok (.halt, rest')
    | .unknown w, _              => .error (.unknownOpcode w)
    | .load, _                   => .error .truncated
    | .add, _                    => .error .truncated
    | .subtract, _               => .error .truncated
    | .print, _                  => .error .truncated

/-- The words of an instruction, in order (R69). -/
def encode (o : Opc) : Instr → List Word
  | .load r v     => [o.load, regWord r, v]
  | .add d s      => [o.add, regWord d, regWord s]
  | .subtract d s => [o.subtract, regWord d, regWord s]
  | .print r      => [o.print, regWord r]
  | .halt         => [o.halt]

/-- The three words of an instruction whose bits are `w`, numbered as the opcode table numbers them: bit 0 is the least
significant bit of the first word, the second word is bits 63 to 32, the third bits 95 to 64. Bits from `nbits` up are
0. The core stores whole words (R38), so no byte order enters. -/
def tableWords (nbits w : Nat) : List Word :=
  let v := w % 2 ^ nbits
  [BitVec.ofNat 32 v, BitVec.ofNat 32 (v / 2 ^ 32), BitVec.ofNat 32 (v / 2 ^ 64)]

/-- The instruction that the decoder reads, under `OPC_REF`, from a word of the opcode table. -/
def decodeTableWord (nbits w : Nat) : Option Instr :=
  match decode Opc.ref (tableWords nbits w) with
  | .ok (i, _) => some i
  | .error _   => none

end Sys2Proof
end

