-- ==== Sys2Proof/Machine/State.lean ====
section
/-! DEFINITION. The architectural state of the core (R37), with the launch parameters that its step reads (R35, R36), the
reasons a step can stop, and the state after reset (R125). -/

namespace Sys2Proof.Machine

/-- The run state (R28). -/
inductive RunState where
  | running
  | halted
  | exhausted
  | faulted
  deriving DecidableEq, Repr

/-- The cause of an exception (R107). -/
inductive Cause where
  /-- A fetch beyond the end of the program (R108), code 1. -/
  | programTruncated
  /-- An opcode word outside the closed set, under policy `Fault` (R109), code 2. -/
  | unknownOpcode
  deriving DecidableEq, Repr

/-- The fault record `(cause, fip, fword)` (R29). -/
structure FaultRecord where
  cause : Cause
  /-- The value of `ip` when the fault was raised. -/
  fip   : Int
  /-- The opcode word for UnknownOpcode, 0 for ProgramTruncated. -/
  fword : Word
  deriving DecidableEq, Repr

/-- An event of the standard-output stream (R33). -/
inductive OutEvent where
  | value (v : Value)
  | haltNotice
  deriving DecidableEq, Repr

/-- An event of the log stream (R33). -/
inductive LogEvent where
  | exhausted
  deriving DecidableEq, Repr

/-- The register file (R20): the keys whose register is not 0, each with its value, keys strictly rising
(`RegFile.wf` of Ops.lean); a key that is not listed reads 0. DESIGN CHOICE: the form (log entry 4). -/
abbrev RegFile := List (RegKey × Value)

/-- A set of register keys (R34): its members, strictly rising (`KeySet.wf` of Ops.lean). -/
abbrev KeySet := List RegKey

/-- The state of the core: the tuple of R37, then the launch parameters (R35, R36), which no step changes. -/
structure State where
  /-- The register file `x` (R20). -/
  x        : RegFile
  /-- The instruction pointer: the index of the last word consumed (R24), unbounded (UNVERIFIED: D15, log
  entry 16). -/
  ip       : Int
  /-- The run state (R28). -/
  runState : RunState
  /-- The fault record (R29). -/
  fault    : Option FaultRecord
  /-- The reserved stack (R32), which no instruction reads or writes. -/
  stack    : Vector Value 128
  /-- The stack pointer (R32), which no instruction reads or writes. -/
  sp       : Int
  /-- The standard-output stream (R33), oldest event first. -/
  out      : List OutEvent
  /-- The log stream (R33), oldest event first. -/
  logs     : List LogEvent
  /-- The keys that have been assigned (R34). -/
  written  : KeySet
  /-- The program memory `P[0..N-1]` (R35, R38), a launch parameter: whole words by index, `N` its length.
  DESIGN CHOICE: a dense list of words (log entries 2, 3). -/
  program  : List Word
  /-- `OPC`, `UNKNOWN_OPCODE_POLICY` and `DEBUG` (R36), launch parameters. -/
  cfg      : LaunchConfig
  deriving DecidableEq, Repr

/-- Why the machine stops outside the spec's own Faulted state. The spec's exceptions are no such stop: they enter the
run state Faulted, a next state (R110). -/
inductive Fault where
  /-- Raised by the fetch when the advanced IP is negative. `MemRead` is undefined there (R17) and no reachable state
  comes to it (R45, R73), so this is safe: it stops only states that no run has. -/
  | negativeFetchIndex (i : Int)
  deriving DecidableEq, Repr

/-- What the model refuses. -/
inductive Refusal where
  /-- Raised by no arm of this model, since every instruction has its meaning; safe. -/
  | notModelled (mnemonic : String)
  /-- Raised by a step in a terminal run state, where no step is enabled (R71); safe. -/
  | notRunning (r : RunState)
  /-- Raised by the construction of a machine with `DEBUG = true`, and by a step in such a state (R14, R137, D9); safe. -/
  | debugDump
  /-- Raised by the host's `load` after the first step (R127, R137, D12); safe. -/
  | loadAfterFirstStep
  /-- Raised by the host's `run` on a machine whose run state is terminal (R128, R137, D11); safe. -/
  | secondRun
  deriving DecidableEq, Repr

/-- The machine that construction makes (R125): every register 0, the IP before the start, Running, no fault, an empty
stack, both streams empty, no program loaded. `stack` and `sp` are the spec's decision D8 (UNVERIFIED, log entry
6), `fault` its D14, the empty program its D20. -/
def State.fresh (cfg : LaunchConfig) : State :=
  { x := [], ip := -1, runState := .running, fault := none, stack := Vector.replicate 128 0, sp := -1,
    out := [], logs := [], written := [], program := [], cfg := cfg }

/-- The machine right after reset (R125), under the reference configuration (R11, R12, R14; DESIGN CHOICE, log
entry 5). -/
def State.reset : State := State.fresh LaunchConfig.ref

end Sys2Proof.Machine
end

