-- ==== Sys2Proof/Machine/Ops.lean ====
section
/-! DEFINITION. The named operations over the register file, the program memory, the output streams and the run state,
and taking an exception. -/

namespace Sys2Proof.Machine

/-! ### The register file (R20, R21) and the set of assigned keys (R34) -/

/-- The value of a key in a register file; a key that is not listed reads 0 (R20). -/
def RegFile.get : RegFile → RegKey → Value
  | [], _           => 0
  | (k', v) :: x, k => if k = k' then v else RegFile.get x k

/-- Put an entry before the first entry with a greater key. -/
def RegFile.insert (k : RegKey) (v : Value) : RegFile → RegFile
  | []     => [(k, v)]
  | e :: x => if k.toNat < e.1.toNat then (k, v) :: e :: x else e :: RegFile.insert k v x

/-- Replace the value of one key (R21). A register that comes to hold 0 is not listed, so that equal register files are
equal data. -/
def RegFile.set (x : RegFile) (k : RegKey) (v : Value) : RegFile :=
  let others := x.filter (fun e => e.1 ≠ k)
  if v = 0 then others else RegFile.insert k v others

/-- The canonical form of a register file: keys strictly rising and no register that holds 0 listed. -/
abbrev RegFile.wf (x : RegFile) : Prop :=
  x.Pairwise (fun a b => a.1.toNat < b.1.toNat) ∧ 0 ∉ x.map (fun e => e.2)

/-- Put a key before the first greater key. -/
def KeySet.insert (k : RegKey) : KeySet → KeySet
  | []      => [k]
  | k' :: w => if k.toNat < k'.toNat then k :: k' :: w else k' :: KeySet.insert k w

/-- Add a key to the set (R34); a key that is there already is not added again. -/
def KeySet.add (w : KeySet) (k : RegKey) : KeySet := if k ∈ w then w else KeySet.insert k w

/-- The canonical form of a key set: strictly rising. -/
abbrev KeySet.wf (w : KeySet) : Prop := w.Pairwise (fun a b => a.toNat < b.toNat)

/-- `x[k]` (R16, R20): never fails. -/
def readReg (s : State) (k : RegKey) : Value := s.x.get k

/-- `x[k] <- v` (R16, R21); the key joins the assigned ones, whatever the value (R34, R85).
UNVERIFIED: which instructions assign is D18 (log entry 17). -/
def writeReg (k : RegKey) (v : Value) (s : State) : State :=
  { s with x := s.x.set k v, written := s.written.add k }

/-! ### Program memory (R38) -/

/-- `N`, the program's length (R10), as an integer that the IP is compared with. -/
def progLen (s : State) : Int := s.program.length

/-- `MemRead(i, 1)` (R17): the word at index `i`, defined for `0 <= i < N` only. -/
def memRead (s : State) (i : Int) : Option Word :=
  if i < 0 then none else s.program[i.toNat]?

/-- Place a word sequence at index `i`, in a program made long enough with words of 0; the rest of the program stays. -/
def placeWords (p : List Word) (i : Nat) (ws : List Word) : List Word :=
  (p ++ List.replicate (i - p.length) 0).take i ++ ws ++ p.drop (i + ws.length)

/-! ### Output streams (R33) -/

/-- `emit` (R19): append an event to standard output. -/
def emit (e : OutEvent) (s : State) : State := { s with out := s.out ++ [e] }

/-- The end of a run with no word left: `log Exhausted` and `state <- Exhausted`, nothing else (R72).
UNVERIFIED: the test that leads here is D3 (log entry 8). -/
def exhaust (s : State) : State :=
  { s with logs := s.logs ++ [.exhausted], runState := .exhausted }

/-- `state <- Halted` (R102). -/
def enterHalted (s : State) : State := { s with runState := .halted }

/-! ### Taking an exception (R107 to R112) -/

/-- The code of a cause (R29, R112). -/
def causeCode : Cause → BitVec 2
  | .programTruncated => 1
  | .unknownOpcode    => 2

/-- Take an exception: enter Faulted and write the fault record, nothing else (R110). There is no handler and no return
(R115, R116). UNVERIFIED: the state and the record are D4 and D14 (log entry 9). -/
def raiseFault (c : Cause) (fword : Word) (s : State) : State :=
  { s with runState := .faulted, fault := some { cause := c, fip := s.ip, fword := fword } }

/-- `raise ProgramTruncated(ip)` (R108), after the IP has been advanced. -/
def raiseProgramTruncated (s : State) : State := raiseFault .programTruncated 0 s

/-- `raise UnknownOpcode(w)` (R109), with the IP at the unknown word. -/
def raiseUnknownOpcode (w : Word) (s : State) : State := raiseFault .unknownOpcode w s

/-! ### The fetch primitive (R73) -/

/-- The increment of the IP: the only change of the IP that the core makes (R25). -/
def advanceIp (s : State) : State := { s with ip := s.ip + 1 }

/-- What a fetch answers. -/
inductive Fetch where
  /-- The word, and the state with the IP on it. -/
  | word (w : Word) (s : State)
  /-- ProgramTruncated was raised: the Faulted state (R108). -/
  | trapped (s : State)
  /-- The index is negative, where `MemRead` is undefined (R17). -/
  | stuck (f : Fault)
  deriving DecidableEq, Repr

/-- `FetchNext()` (R73): the increment comes first, then the bound test, then the read. -/
def fetchNext (s : State) : Fetch :=
  let s' := advanceIp s
  if progLen s' ≤ s'.ip then .trapped (raiseProgramTruncated s')
  else
    match memRead s' s'.ip with
    | some w => .word w s'
    | none   => .stuck (.negativeFetchIndex s'.ip)

end Sys2Proof.Machine
end

