-- ==== Sys2Proof/Machine/Operands.lean ====
section
/-! DEFINITION. The operand forms: the widened immediate (R59, R86), the keys of the register symbols (R67), and the
operand words that a program holds. The register operand word itself is `u32` of Decode.lean (R58). -/

namespace Sys2Proof.Machine

/-- `sext_64(w)` (R15): bits 31 to 0 are the word's, bits 63 to 32 are each its bit 31. -/
def sext64 (w : Word) : Value := (if w.getLsbD 31 then BitVec.allOnes 32 else 0#32) ++ w

/-- The operand word of a register symbol: EAX, EBX, ECX and EDX stand for 0, 1, 2 and 3 (R67, D7). -/
def symbolWord : RegSymbol → Word
  | .eax => 0
  | .ebx => 1
  | .ecx => 2
  | .edx => 3

end Sys2Proof.Machine
end

