-- ==== Sys2Proof/Machine/Alu.lean ====
section
/-! DEFINITION. The ALU: Add and Subtract (R88 to R95). It has no flag to compute: no carry, overflow, sign or zero is
recorded (R30, R90, R94). -/

namespace Sys2Proof.Machine

/-- The operation select of the ALU (R90). -/
inductive AluOp where
  | add
  | subtract
  deriving DecidableEq, Repr

/-- `wrap(n)` (R91): the 64-bit value congruent to `n` modulo `2^64`. UNVERIFIED:
wrapping is the spec's decision D6 (log entry 7). -/
def wrap64 (n : Int) : Value := BitVec.ofInt 64 n

/-- The ALU (R90, R91): the exact signed result, wrapped. -/
def alu : AluOp → Value → Value → Value
  | .add, a, b      => wrap64 (a.toInt + b.toInt)
  | .subtract, a, b => wrap64 (a.toInt - b.toInt)

/-- The datapath of both instructions (R52, R90): both registers are read, then the result goes to the first. -/
def aluWrite (op : AluOp) (dst src : RegKey) (s : State) : State :=
  writeReg dst (alu op (readReg s dst) (readReg s src)) s

/-- Add (R88). -/
def execAdd (dst src : RegKey) (s : State) : Host.Outcome State Fault Refusal :=
  .next (aluWrite .add dst src s)

/-- Subtract (R89): `dst - src`. -/
def execSubtract (dst src : RegKey) (s : State) : Host.Outcome State Fault Refusal :=
  .next (aluWrite .subtract dst src s)

end Sys2Proof.Machine
end

