-- ==== Sys2Proof/Machine/Halt.lean ====
section
/-! DEFINITION. Halt (R102), and what an unknown opcode word does (R103, R104). -/

namespace Sys2Proof.Machine

/-- Halt (R102): the halt notice, then the terminal state Halted. -/
def execHalt (s : State) : Host.Outcome State Fault Refusal :=
  .next (enterHalted (emit .haltNotice s))

/-- An unknown opcode word, after its fetch: skipped under policy `Ignore` (R103), the exception UnknownOpcode under
policy `Fault` (R104). -/
def execUnknown (w : Word) (s : State) : Host.Outcome State Fault Refusal :=
  match s.cfg.policy with
  | .ignore => .next s
  | .fault  => .next (raiseUnknownOpcode w s)

end Sys2Proof.Machine
end

