-- ==== Sys2Proof/Machine/ImmediateLoader.lean ====
section
/-! DEFINITION. The immediate loader: Load (R85 to R87). -/

namespace Sys2Proof.Machine

/-- Load (R85): the widened immediate goes to the register; the value it held is discarded. -/
def execLoad (reg : RegKey) (value : Word) (s : State) : Host.Outcome State Fault Refusal :=
  .next (writeReg reg (sext64 value) s)

end Sys2Proof.Machine
end

