-- ==== Sys2Proof/Machine/Output.lean ====
section
/-! DEFINITION. The output multiplexer: Print (R96 to R98), and the text of the two streams (R99 to R101). -/

namespace Sys2Proof.Machine

/-- Print (R96): the register's 64-bit value goes to standard output. -/
def execPrint (reg : RegKey) (s : State) : Host.Outcome State Fault Refusal :=
  .next (emit (.value (readReg s reg)) s)

/-! ### Rendering -/

/-- The decimal digit of a number below 10. -/
def digitChar (d : Nat) : Char := Char.ofNat (48 + d)

/-- The decimal digits of a number, most significant first, at most `fuel` of them. -/
def decimalDigits : Nat → Nat → List Char
  | 0, _        => []
  | fuel + 1, n => if n < 10 then [digitChar n] else decimalDigits fuel (n / 10) ++ [digitChar (n % 10)]

/-- The plain decimal form of an integer (R99, D10): a leading `-` for a negative one, no `+`, no leading zeros. Twenty
digits hold every 64-bit magnitude. UNVERIFIED: the form is D10 (log entry 14). -/
def decimal (n : Int) : List Char :=
  if n < 0 then '-' :: decimalDigits 20 n.natAbs else decimalDigits 20 n.natAbs

/-- The halt notice's text (R100). -/
def haltNoticeText : List Char :=
  ['h', 'a', 'l', 't', 'i', 'n', 'g', ',', ' ', 'p', 'l', 'e', 'a', 's', 'e', ' ', 'w', 'a', 'i', 't']

/-- The line that an event of standard output is written as (R99, R100), with its newline (0x0A). -/
def renderOutEvent : OutEvent → List Char
  | .value v    => decimal v.toInt ++ ['\n']
  | .haltNotice => haltNoticeText ++ ['\n']

/-- The text of the standard-output stream. -/
def renderOut (out : List OutEvent) : List Char := out.flatMap renderOutEvent

/-- The line that an event of the log stream is written as (R101): one line, of the free text `EXHAUST_LOG_TEXT`.
DESIGN CHOICE: newlines in the text are dropped (log entry 13). -/
def renderLogEvent : LogEvent → List Char
  | .exhausted => Config.exhaustLogText.filter (fun c => c ≠ '\n') ++ ['\n']

/-- The text of the log stream. The spec orders it against standard output nowhere (R33, D22), so the two are never
merged. -/
def renderLogs (logs : List LogEvent) : List Char := logs.flatMap renderLogEvent

end Sys2Proof.Machine
end

