-- ==== Sys2Proof/Machine/Dispatch.lean ====
section
/-! DEFINITION. The dispatch of a decoded instruction to its meaning (R75), after all its words have been fetched. -/

namespace Sys2Proof.Machine

def exec (i : Instr) (s : State) : Host.Outcome State Fault Refusal :=
  match i with
  | .load reg value => Sys2Proof.Machine.execLoad reg value s
  | .add dst src => Sys2Proof.Machine.execAdd dst src s
  | .subtract dst src => Sys2Proof.Machine.execSubtract dst src s
  | .print reg => Sys2Proof.Machine.execPrint reg s
  | .halt => Sys2Proof.Machine.execHalt s

end Sys2Proof.Machine
end

