-- ==== Sys2Proof/Machine/Engine.lean ====
section
/-! DEFINITION. The fetch and decode part of one step (R71 to R75): everything before an instruction's effect. -/

namespace Sys2Proof.Machine

/-- What the fetch and decode part of a step comes to. -/
inductive Begun where
  /-- A whole instruction was fetched: its effect is next, in this state (R27, R75). -/
  | instr (i : Instr) (s : State)
  /-- The opcode word is none of the five; no operand is fetched (R63). -/
  | unknown (w : Word) (s : State)
  /-- The step ends in this state, with no instruction executed: Exhausted (R72) or Faulted (R108). -/
  | ended (s : State)
  | stuck (f : Fault)
  | refused (r : Refusal)
  deriving DecidableEq, Repr

/-- Fetch the last operand word of an instruction. -/
def fetchOne (mk : Word → Instr) (s : State) : Begun :=
  match fetchNext s with
  | .word w s'  => .instr (mk w) s'
  | .trapped s' => .ended s'
  | .stuck f    => .stuck f

/-- Fetch the two operand words of an instruction, in order (R57). -/
def fetchTwo (mk : Word → Word → Instr) (s : State) : Begun :=
  match fetchNext s with
  | .word w s'  => fetchOne (mk w) s'
  | .trapped s' => .ended s'
  | .stuck f    => .stuck f

/-- Fetch the operands that a decoded opcode has (R56, R57, R75). -/
def fetchOperands (d : DecodedOp) (s : State) : Begun :=
  match d with
  | .load      => fetchTwo (fun r v => .load (u32 r) v) s
  | .add       => fetchTwo (fun d s => .add (u32 d) (u32 s)) s
  | .subtract  => fetchTwo (fun d s => .subtract (u32 d) (u32 s)) s
  | .print     => fetchOne (fun r => .print (u32 r)) s
  | .halt      => .instr .halt s
  | .unknown w => .unknown w s

/-- The exhaustion check, the opcode fetch, the decode and the operand fetches, in that order (R72 to R75, R114). -/
def runCycle (s : State) : Begun :=
  if progLen s ≤ s.ip + 1 then .ended (exhaust s)
  else
    match fetchNext s with
    | .word w s'  => fetchOperands (decodeOp s'.cfg.opc w) s'
    | .trapped s' => .ended s'
    | .stuck f    => .stuck f

/-- The start of a step: it is enabled exactly in Running (R71), for a machine with `DEBUG = false` (R14, R137). -/
def beginStep (s : State) : Begun :=
  match s.runState with
  | .running   => if s.cfg.debug then .refused .debugDump else runCycle s
  | .halted    => .refused (.notRunning .halted)
  | .exhausted => .refused (.notRunning .exhausted)
  | .faulted   => .refused (.notRunning .faulted)

end Sys2Proof.Machine
end

