-- ==== Sys2Proof/Machine/Step.lean ====
section
/-! DEFINITION. One step of the core (R76): one whole instruction, atomically (R78); and the host's `withFetchWord`. -/

namespace Sys2Proof.Machine

/-- `Step()` (R76). An exception is a next state, Faulted (R110); so is exhaustion. -/
def step (s : State) : Host.Outcome State Fault Refusal :=
  match beginStep s with
  | .instr i s'   => exec i s'
  | .unknown w s' => execUnknown w s'
  | .ended s'     => .next s'
  | .stuck f      => .fault f
  | .refused r    => .refused r

/-- The state with an instruction of the opcode table placed at the index that the next step fetches from, `ip + 1`
(R24). It stands for the host's `load` (R127); nothing but the program changes. -/
def State.withFetchWord (s : State) (nbits w : Nat) : State :=
  { s with program := placeWords s.program (s.ip + 1).toNat (tableWords nbits w) }

end Sys2Proof.Machine
end

