-- ==== Sys2Proof/Machine/Assembler.lean ====
section
/-! DEFINITION. The assembler notation (R66 to R69): a way to write word sequences, not a second input of the core (R6). -/

namespace Sys2Proof.Machine

/-- The operand word of a register operand (R66, R67). -/
def asmRegWord : AsmReg → Word
  | .symbol r => symbolWord r
  | .number n => BitVec.ofInt 32 n

/-- The words of an assembler item (R69); an item with an operand out of range has none (R66). -/
def asmWords (o : Opc) (a : AsmItem) : Option (List Word) :=
  if a.wf then
    match a with
    | .load r v     => some [o.load, asmRegWord r, BitVec.ofInt 32 v]
    | .add d s      => some [o.add, asmRegWord d, asmRegWord s]
    | .subtract d s => some [o.subtract, asmRegWord d, asmRegWord s]
    | .print r      => some [o.print, asmRegWord r]
    | .halt         => some [o.halt]
  else none

/-- The words of a program: the concatenation of its items' words (R69). -/
def asmProgram (o : Opc) : List AsmItem → Option (List Word)
  | []          => some []
  | a :: items  =>
    match asmWords o a, asmProgram o items with
    | some ws, some rest => some (ws ++ rest)
    | _, _               => none

/-- The text of a register operand (R66, R67). -/
def asmRegText : AsmReg → List Char
  | .symbol .eax => ['E', 'A', 'X']
  | .symbol .ebx => ['E', 'B', 'X']
  | .symbol .ecx => ['E', 'C', 'X']
  | .symbol .edx => ['E', 'D', 'X']
  | .number n    => decimal n

/-- The text of an item: the mnemonic, then its operands, separated by spaces (R66). -/
def asmText : AsmItem → List Char
  | .load r v     => ['L', 'o', 'a', 'd', ' '] ++ asmRegText r ++ [' '] ++ decimal v
  | .add d s      => ['A', 'd', 'd', ' '] ++ asmRegText d ++ [' '] ++ asmRegText s
  | .subtract d s => ['S', 'u', 'b', 't', 'r', 'a', 'c', 't', ' '] ++ asmRegText d ++ [' '] ++ asmRegText s
  | .print r      => ['P', 'r', 'i', 'n', 't', ' '] ++ asmRegText r
  | .halt         => ['H', 'a', 'l', 't']

/-- The text of a program: its items separated by `; ` (R66). -/
def asmProgramText : List AsmItem → List Char
  | []         => []
  | [a]        => asmText a
  | a :: items => asmText a ++ [';', ' '] ++ asmProgramText items

end Sys2Proof.Machine
end

