-- ==== Sys2Proof/Machine/HostOps.lean ====
section
/-! DEFINITION. The host's operations on the core (R125, R127, R128, R137): construct, load, run. -/

namespace Sys2Proof.Machine

/-- `construct` (R125, R137): a fresh machine; `DEBUG = true` is refused (R137, D9). -/
def hostConstruct (cfg : LaunchConfig) : Host.Outcome State Fault Refusal :=
  if cfg.debug then .refused .debugDump else .next (State.fresh cfg)

/-- Whether no step has been taken yet: every step either leaves Running or consumes a word (R80). DEDUCED:
log entry 20. -/
def beforeFirstStep (s : State) : Bool := decide (s.ip = -1) && decide (s.runState = .running)

/-- `load(program)` (R127): replaces `P` and `N`, changes nothing else and checks nothing; after the first step it is
refused (R50, R137, D12). -/
def hostLoad (program : List Word) (s : State) : Host.Outcome State Fault Refusal :=
  if beforeFirstStep s then .next { s with program := program } else .refused .loadAfterFirstStep

/-- Take steps while the run state is Running (R70), at most `fuel` of them. -/
def runLoop : Nat → State → Host.Outcome State Fault Refusal
  | 0, s        => .next s
  | fuel + 1, s =>
    match s.runState with
    | .running =>
      match step s with
      | .next s'   => runLoop fuel s'
      | .fault f   => .fault f
      | .refused r => .refused r
    | _ => .next s

/-- A number of steps after which no launch is Running: each step that stays Running consumes a word (R80). -/
def runFuel (s : State) : Nat := (progLen s - s.ip).toNat + 1

/-- `run()` (R128): step until the run state is terminal. A machine that is terminal already is refused (R137, D11). -/
def hostRun (s : State) : Host.Outcome State Fault Refusal :=
  match s.runState with
  | .running => runLoop (runFuel s) s
  | _        => .refused .secondRun

/-- The boot sequence (R129): construct, then `load`, then `run`. -/
def hostBoot (cfg : LaunchConfig) (program : List Word) : Host.Outcome State Fault Refusal :=
  match hostConstruct cfg with
  | .next s =>
    match hostLoad program s with
    | .next s'   => hostRun s'
    | .fault f   => .fault f
    | .refused r => .refused r
  | .fault f   => .fault f
  | .refused r => .refused r

end Sys2Proof.Machine
end

