-- ==== Sys2Proof/Machine/Loader.lean ====
section
/-! DEFINITION. A loader outside the core that turns a byte image into program words, for either `WORD_BYTE_ORDER`
(R41, D13). No rule of the core depends on it. PRESUMED: which byte comes first in each order (log entry 26). -/

namespace Sys2Proof.Machine

/-- The four bytes of a word at rising addresses. -/
def bytesOfWord (order : ByteOrder) (w : Word) : List Byte :=
  let b := [w.extractLsb' 0 8, w.extractLsb' 8 8, w.extractLsb' 16 8, w.extractLsb' 24 8]
  match order with
  | .little => b
  | .big    => b.reverse

/-- The word that four bytes at rising addresses make. -/
def wordOfBytes (order : ByteOrder) (b0 b1 b2 b3 : Byte) : Word :=
  match order with
  | .little => b3 ++ b2 ++ b1 ++ b0
  | .big    => b0 ++ b1 ++ b2 ++ b3

/-- The byte image of a program. -/
def imageOfWords (order : ByteOrder) (ws : List Word) : List Byte := ws.flatMap (bytesOfWord order)

/-- The program that a byte image holds; none where the image is not made of whole words. -/
def wordsOfImage (order : ByteOrder) : List Byte → Option (List Word)
  | []                           => some []
  | b0 :: b1 :: b2 :: b3 :: rest => (wordsOfImage order rest).map (wordOfBytes order b0 b1 b2 b3 :: ·)
  | _                            => none

end Sys2Proof.Machine
end

