-- ==== Sys2Proof/Machine/Phases.lean ====
section
/-! DEFINITION. The instruction-pointer state machine as a hardware block (R77): the phases inside one step. The step of
Step.lean is atomic (R78) and the phases are never observed; they give the order of effects.
DESIGN CHOICE: log entry 24. -/

namespace Sys2Proof.Machine

/-- A phase of R77, with what the block has latched so far. -/
inductive Phase where
  | check
  | fetchOp
  | decode (op : Word)
  /-- One operand fetch; `got` operands have been latched. -/
  | fetchOperand (d : DecodedOp) (got : Nat) (first : Word)
  | execute (d : DecodedOp) (first second : Word)
  /-- HALTED, EXHAUSTED or FAULTED, as the run state says. -/
  | stopped
  deriving DecidableEq, Repr

/-- The block: its phase and the state of the core. -/
structure Block where
  phase : Phase
  core  : State
  deriving DecidableEq, Repr

/-- The phase that an instruction ends in: CHECK in Running, else the terminal one (R77, R82). -/
def endPhase (s : State) : Phase :=
  match s.runState with
  | .running => .check
  | _        => .stopped

/-- The block after a step's last phase. -/
def atEnd (s : State) : Block := { phase := endPhase s, core := s }

/-- The same outcome with the next state mapped. -/
def mapNext {α β : Type} (f : α → β) : Host.Outcome α Fault Refusal → Host.Outcome β Fault Refusal
  | .next s    => .next (f s)
  | .fault r   => .fault r
  | .refused r => .refused r

/-- The EXECUTE phase (R77): the register write, the output event, Halt or the unknown-opcode action. -/
def executePhase (d : DecodedOp) (first second : Word) (s : State) : Host.Outcome State Fault Refusal :=
  match d with
  | .unknown w => execUnknown w s
  | d =>
    match assemble d first second with
    | some i => exec i s
    | none   => .next s

/-- The phase after DECODE (R77): the first operand fetch, or EXECUTE where the opcode has no operand. -/
def afterDecode (d : DecodedOp) (s : State) : Block :=
  if operandCount d = 0 then { phase := .execute d 0 0, core := s }
  else { phase := .fetchOperand d 0 0, core := s }

/-- The phase after an operand fetch (R77), with the word latched: the next fetch, or EXECUTE after the last one. -/
def afterOperand (d : DecodedOp) (got : Nat) (first w : Word) (s : State) : Block :=
  let latched := if got = 0 then w else first
  if got + 1 = operandCount d then { phase := .execute d latched w, core := s }
  else { phase := .fetchOperand d (got + 1) latched, core := s }

/-- One phase (the rows of R77). -/
def phaseStep (b : Block) : Host.Outcome Block Fault Refusal :=
  match b.phase with
  | .check =>
    if progLen b.core ≤ b.core.ip + 1 then .next (atEnd (exhaust b.core))
    else .next { b with phase := .fetchOp }
  | .fetchOp =>
    match fetchNext b.core with
    | .word w s  => .next { phase := .decode w, core := s }
    | .trapped s => .next (atEnd s)
    | .stuck f   => .fault f
  | .decode op => .next (afterDecode (decodeOp b.core.cfg.opc op) b.core)
  | .fetchOperand d got first =>
    match fetchNext b.core with
    | .word w s  => .next (afterOperand d got first w s)
    | .trapped s => .next (atEnd s)
    | .stuck f   => .fault f
  | .execute d first second => mapNext atEnd (executePhase d first second b.core)
  | .stopped => .refused (.notRunning b.core.runState)

/-- Whether the block is between two steps. -/
def atBoundary (b : Block) : Bool :=
  match b.phase with
  | .check   => true
  | .stopped => true
  | _        => false

/-- Run phases until the block is between two steps, at most `fuel` of them. -/
def toBoundary : Nat → Block → Host.Outcome Block Fault Refusal
  | 0, b        => .next b
  | fuel + 1, b =>
    match phaseStep b with
    | .next b'   => if atBoundary b' then .next b' else toBoundary fuel b'
    | .fault f   => .fault f
    | .refused r => .refused r

/-- One step by phases: CHECK, FETCH_OP, DECODE, at most two FETCH_OPND, EXECUTE. -/
def stepByPhases (s : State) : Host.Outcome Block Fault Refusal :=
  toBoundary 6 { phase := .check, core := s }

/-- The IP that R77 gives a phase on entry, for a step whose opcode word stands at index `a`. -/
def ipOnEntry (a : Int) : Phase → Option Int
  | .check                => some (a - 1)
  | .fetchOp              => some (a - 1)
  | .decode _             => some a
  | .fetchOperand _ got _ => some (a + got)
  | .execute d _ _        => some (a + operandCount d)
  | .stopped              => none

end Sys2Proof.Machine
end

