-- ==== Sys2Proof/Machine/Ports.lean ====
section
/-! DEFINITION. What can be seen of the core: the abstract signal set (R140), over one fetch, one step and one run, with
the `start` signal that begins a run; and what the excluded debug dump would read (R83, R122, R141). No step reads any
of this. -/

namespace Sys2Proof.Machine

/-! ### The program port (R140): `prog_addr` out, `prog_data` in -/

/-- One fetch at the program port. -/
structure ProgFetch where
  /-- `prog_addr`. -/
  addr : Int
  /-- `prog_data`, valid when `addr < prog_len`; none where it is not valid. -/
  data : Option Word
  deriving DecidableEq, Repr

/-- `prog_addr` of a fetch from a state: the fetch index `ip + 1`, which is the IP after the increment of R73. -/
def progAddr (s : State) : Int := (advanceIp s).ip

/-- The fetch that `FetchNext()` makes from a state, as the program port shows it. -/
def portFetch (s : State) : ProgFetch := { addr := progAddr s, data := memRead s (progAddr s) }

/-- The fetch that a phase makes: the opcode fetch, and each operand fetch (R77). -/
def phaseFetch (b : Block) : Option ProgFetch :=
  match b.phase with
  | .fetchOp            => some (portFetch b.core)
  | .fetchOperand _ _ _ => some (portFetch b.core)
  | .check              => none
  | .decode _           => none
  | .execute _ _ _      => none
  | .stopped            => none

/-- The fetches of the phases up to the end of the step, in order, over at most `fuel` phases. -/
def fetchesToBoundary : Nat → Block → List ProgFetch
  | 0, _        => []
  | fuel + 1, b =>
    (phaseFetch b).toList ++
      match phaseStep b with
      | .next b'   => if atBoundary b' then [] else fetchesToBoundary fuel b'
      | .fault _   => []
      | .refused _ => []

/-- Every fetch of the step from a state, the opcode's and the operands' (R74, R75), in order. -/
def stepFetches (s : State) : List ProgFetch := fetchesToBoundary 6 { phase := .check, core := s }

/-! ### The signals of a step -/

/-- The signals of R140 over one step. No encoding of `run_state` is given, so it stays a name. DESIGN CHOICE: log
entry 23. -/
structure Ports where
  progLen    : Nat
  /-- What the program port showed during the step. -/
  fetches    : List ProgFetch
  /-- `prog_addr` for the fetch that would come next. -/
  progAddr   : Int
  /-- Valid when `progAddr < progLen`. -/
  progData   : Option Word
  /-- The output event, where `out_valid` holds. -/
  outEvent   : Option OutEvent
  logValid   : Bool
  runState   : RunState
  /-- 0 none, 1 ProgramTruncated, 2 UnknownOpcode (D14). -/
  faultCause : BitVec 2
  faultIp    : Option Int
  faultWord  : Option Word
  deriving DecidableEq, Repr

/-- The signals of a step that went from `before` to `after`. -/
def ports (before after : State) : Ports :=
  { progLen    := after.program.length
    fetches    := stepFetches before
    progAddr   := progAddr after
    progData   := memRead after (progAddr after)
    outEvent   := (after.out.drop before.out.length).head?
    logValid   := decide (before.logs.length < after.logs.length)
    runState   := after.runState
    faultCause := (after.fault.map (fun r => causeCode r.cause)).getD 0
    faultIp    := after.fault.map (fun r => r.fip)
    faultWord  := after.fault.map (fun r => r.fword) }

/-! ### The `start` signal and the signals of a run -/

/-- The core's answer to `start`, the host's `run()` (R128, R140): raised, the core runs until its run state is
terminal; not raised, it takes no step. DESIGN CHOICE: log entry 23. -/
def onStart (start : Bool) (s : State) : Host.Outcome State Fault Refusal :=
  match start with
  | true  => hostRun s
  | false => .next s

/-- The signals of each step from a state until none is enabled, at most `fuel` steps. -/
def portTrace : Nat → State → List Ports
  | 0, _        => []
  | fuel + 1, s =>
    match step s with
    | .next t    => ports s t :: portTrace fuel t
    | .fault _   => []
    | .refused _ => []

/-- The whole signal set of R140 over one answer to `start`. -/
structure RunPorts where
  /-- The configuration inputs `OPC`, `UNKNOWN_OPCODE_POLICY` and `DEBUG`, fixed before construction. -/
  cfg     : LaunchConfig
  /-- `prog_len`, fixed after `load`. -/
  progLen : Nat
  start   : Bool
  /-- The signals of each step that the core took, in order. -/
  steps   : List Ports
  deriving DecidableEq, Repr

/-- What the ports show from a state on, for either value of `start`. -/
def runPorts (start : Bool) (s : State) : RunPorts :=
  { cfg     := s.cfg
    progLen := s.program.length
    start   := start
    steps   := if start then portTrace (runFuel s) s else [] }

/-! ### The debug dump -/

/-- What the debug dump would print before an instruction (R122): the IP, the stack pointer, the whole stack, and every
register that has been assigned with its value (R34; which ones are assigned is D18, log entry 17). Its format is in no
source, so the core does not print it. -/
structure DumpContents where
  ip        : Int
  sp        : Int
  stack     : Vector Value 128
  /-- The register/value pairs by rising key. No source gives their order (R83, R122). DESIGN CHOICE: log entry 27. -/
  registers : List (RegKey × Value)
  deriving DecidableEq, Repr

/-- The contents of the debug dump in a state; a pure observer. The order of the register pairs, by rising key in every
state whose assigned keys are in canonical form, is the model's. DESIGN CHOICE: log entry 27. -/
def dumpContents (s : State) : DumpContents :=
  { ip := s.ip, sp := s.sp, stack := s.stack, registers := s.written.map (fun k => (k, readReg s k)) }

end Sys2Proof.Machine
end

