-- ==== Sys2Proof/Safety.lean ====
section
/-! DEFINITION. What the statements are said in: when a step is enabled, which words stand next in the program, and the
invariant of every state that a launch can reach. -/

namespace Sys2Proof.Machine

/-- A step is enabled (R71): the run state is Running; `DEBUG = false`, as the core takes it (R14); and the IP is at or
after its before-start sentinel, as in every reachable state (R26). -/
structure State.Enabled (s : State) : Prop where
  running : s.runState = .running
  noDebug : s.cfg.debug = false
  ipLow   : -1 ≤ s.ip

/-- The words from the next fetch index, `ip + 1`, to the end of the program (R24, R38). -/
def State.ahead (s : State) : List Word := s.program.drop (s.ip + 1).toNat

/-- A state in which the spec's five instructions leave everything but the registers, the IP, the run state and the
output stream as it was: no fault, no log event, the reserved stack, the program (whole, and word by word through the
one read of it) and the launch parameters (R22, R32, R36, R39). -/
structure State.SameRest (s t : State) : Prop where
  fault   : t.fault = s.fault
  logs    : t.logs = s.logs
  stack   : t.stack = s.stack
  sp      : t.sp = s.sp
  cfg     : t.cfg = s.cfg
  program : t.program = s.program
  words   : ∀ i, memRead t i = memRead s i

/-- No register and no assigned key differs (R22). -/
structure State.SameRegs (s t : State) : Prop where
  reads   : ∀ k, readReg t k = readReg s k
  written : t.written = s.written

/-- One register is written: every other register reads as before, and its key joins the assigned ones (R21, R34). -/
structure State.OnlyRegChanges (s t : State) (k : RegKey) : Prop where
  others  : ∀ k', k' ≠ k → readReg t k' = readReg s k'
  written : ∀ k', k' ∈ t.written ↔ k' = k ∨ k' ∈ s.written

/-- The step ended in ProgramTruncated (R108): Faulted, the record `(ProgramTruncated, N, 0)`, the IP at `N`. -/
structure State.EndsTruncated (s t : State) : Prop where
  runState : t.runState = .faulted
  fault    : t.fault = some { cause := .programTruncated, fip := progLen s, fword := 0 }
  ip       : t.ip = progLen s

/-- The run state is terminal (R28). -/
abbrev State.terminal (s : State) : Prop := s.runState ≠ .running

/-- What the fault record says, beside the run state (R29, R108, R109). -/
def State.faultFits (s : State) : Prop :=
  match s.fault with
  | none => s.runState ≠ .faulted
  | some r =>
    s.runState = .faulted ∧ r.fip = s.ip ∧
      match r.cause with
      | .programTruncated => s.ip = progLen s ∧ r.fword = 0
      | .unknownOpcode =>
        s.cfg.policy = .fault ∧ memRead s s.ip = some r.fword ∧ r.fword ∉ s.cfg.opc.values

/-- What the output stream holds of halt notices: none, but for a last one in Halted (R33, R82, R102). -/
def State.outFits (s : State) : Prop :=
  (s.runState ≠ .halted → OutEvent.haltNotice ∉ s.out) ∧
  (s.runState = .halted →
    memRead s s.ip = some s.cfg.opc.halt ∧
      ∃ before, s.out = before ++ [.haltNotice] ∧ OutEvent.haltNotice ∉ before)

/-- The invariant of a launch, kept by every step and by `load`. -/
structure State.Inv (s : State) : Prop where
  /-- The launch parameters are ones the core admits (R14, R62). -/
  cfgOk      : s.cfg.wf
  /-- The register file and the set of assigned keys are in their canonical form. -/
  regsOk     : s.x.wf
  writtenOk  : s.written.wf
  /-- A register that is not 0 has been assigned (R34). -/
  regsKnown  : ∀ e ∈ s.x, e.1 ∈ s.written
  /-- The range of the IP (R26). -/
  ipLow      : -1 ≤ s.ip
  ipHigh     : s.ip ≤ progLen s
  ipInside   : s.runState ≠ .faulted → s.ip < progLen s
  /-- Exhausted only at the end of the program (R72). -/
  atTheEnd   : s.runState = .exhausted → s.ip + 1 = progLen s
  /-- The fault record is there exactly in Faulted, and says why (R29, R108, R109). -/
  faultOk    : s.faultFits
  /-- The exhaustion event is logged once in Exhausted and never otherwise (R81). -/
  logsOk     : s.logs = if s.runState = .exhausted then [.exhausted] else []
  /-- The halt notice is the last event in Halted and stands nowhere otherwise (R82, R102). -/
  outOk      : s.outFits

end Sys2Proof.Machine
end

