-- ==== Sys2Proof/Certificates/Slice0/Obligations.lean ====
section
/-! DEFINITION. The statements for the provers. Each docstring names the rules of spec/ that the statement formalises,
and the decision of spec/ (D<n>) or the log entry that a clause rests on where the spec marks it as its own choice. -/

open Sys2Proof Sys2Proof.Machine

/-! ### Encoding -/

/-- For every admissible binding and every instruction with every operand, decoding the encoded words followed by any
others gives the instruction and those others (R53, R60, R64, R65, R69). -/
def Obligations.DecodeInvertsEncode : Prop :=
  ∀ (o : Opc), o.wf → ∀ (i : Instr) (rest : List Word), decode o (encode o i ++ rest) = .ok (i, rest)

/-- Whatever decodes to an instruction starts with exactly the words that encode it: no bit of any word is dropped
(R53, R54, R69). -/
def Obligations.EncodeInvertsDecode : Prop :=
  ∀ (o : Opc) (ws : List Word) (i : Instr) (rest : List Word),
    decode o ws = .ok (i, rest) → ws = encode o i ++ rest

/-- A word selects an opcode exactly when it equals that opcode's value, all 32 bits significant (R54). -/
def Obligations.OpcodeSelectedByWholeWord : Prop :=
  ∀ (o : Opc), o.wf → ∀ (w : Word),
    (decodeOp o w = .load ↔ w = o.load) ∧ (decodeOp o w = .add ↔ w = o.add) ∧
    (decodeOp o w = .subtract ↔ w = o.subtract) ∧ (decodeOp o w = .print ↔ w = o.print) ∧
    (decodeOp o w = .halt ↔ w = o.halt) ∧
    (∀ u, decodeOp o w = .unknown u ↔ u = w ∧ w ∉ o.values) ∧
    ∀ v ∈ o.values, (w &&& 0xFFFFFFFF = v ↔ w = v)

/-- Decoding is total and refuses by name: no word, an unknown opcode word, or a known one whose operand words are
missing (R53, R56, R63, R64). -/
def Obligations.DecodeRefusesByName : Prop :=
  ∀ (o : Opc) (ws : List Word),
    (decode o ws = .error .noWord ↔ ws = []) ∧
    (∀ w, decode o ws = .error (.unknownOpcode w) ↔ ws.head? = some w ∧ w ∉ o.values) ∧
    (decode o ws = .error .truncated ↔
      ∃ w rest, ws = w :: rest ∧ w ∈ o.values ∧ rest.length < operandCount (decodeOp o w))

/-- Words written out from R58, R59, R61 and R69, under the reference binding (D1), decode to what they stand for. -/
def Obligations.SpecWordsDecode : Prop :=
  decode Opc.ref [0x00000000, 0x00000000, 0x00000001] = .ok (.load 0 1, []) ∧
  decode Opc.ref [0x00000000, 0xFFFFFFFF, 0x80000000] = .ok (.load 4294967295 0x80000000, []) ∧
  decode Opc.ref [0x00000001, 0x00000000, 0x00000001] = .ok (.add 0 1, []) ∧
  decode Opc.ref [0x00000002, 0x00000002, 0x00000003] = .ok (.subtract 2 3, []) ∧
  decode Opc.ref [0x00000003, 0x00000007] = .ok (.print 7, []) ∧
  decode Opc.ref [0x00000004, 0x00000003] = .ok (.halt, [0x00000003]) ∧
  decode Opc.ref [0x00000063] = .error (.unknownOpcode 99) ∧
  decode Opc.ref [0x00000001, 0x00000000] = .error .truncated

/-- The assembler notation (R66, R67, R69): an item has words exactly when its operands are in range; they are then the
opcode word and the operand words, in order, a number being the word of that signed value and a symbol EAX, EBX, ECX or
EDX the word 0, 1, 2 or 3 (D7). -/
def Obligations.AssemblerItemWords : Prop :=
  ∀ (o : Opc) (a : AsmItem),
    ((asmWords o a).isSome ↔ a.wf = true) ∧
    (a.wf = true → asmWords o a = some (match a with
      | .load r v => [o.load, asmRegWord r, BitVec.ofInt 32 v]
      | .add d s => [o.add, asmRegWord d, asmRegWord s]
      | .subtract d s => [o.subtract, asmRegWord d, asmRegWord s]
      | .print r => [o.print, asmRegWord r]
      | .halt => [o.halt])) ∧
    (∀ n : Int, inWordRange n → (BitVec.ofInt 32 n : Word).toInt = n ∧ (asmRegWord (.number n)).toInt = n) ∧
    [RegSymbol.eax, .ebx, .ecx, .edx].map (fun r => asmRegWord (.symbol r)) = [0, 1, 2, 3]

/-! ### Reset and the host's operations -/

/-- What construction leaves (R125), for every configuration: every register reads 0, nothing assigned, the IP at -1,
Running, no fault (D14), stack entries 0 and `sp` -1 (D8), both streams empty, no program (D20). The first clause is the
model's choice, a DESIGN CHOICE of log entry 5: `State.reset` is the fresh machine of the reference configuration, with
OPC_REF (D1) and policy Ignore (D5). -/
def Obligations.ResetValues : Prop :=
  State.reset = State.fresh LaunchConfig.ref ∧
  ∀ (cfg : LaunchConfig) (s : State), s = State.fresh cfg →
    (∀ k, readReg s k = 0) ∧ s.written = [] ∧ s.ip = -1 ∧ s.runState = .running ∧ s.fault = none ∧
    (∀ i : Fin 128, s.stack[i] = 0) ∧ s.sp = -1 ∧ s.out = [] ∧ s.logs = [] ∧ progLen s = 0 ∧ s.cfg = cfg

/-- `DEBUG = true` is refused, at construction and by a step (R137, D9; log entry 12). -/
def Obligations.DebugIsRefused : Prop :=
  (∀ cfg, cfg.debug = true → hostConstruct cfg = .refused .debugDump) ∧
  (∀ cfg, cfg.debug = false → hostConstruct cfg = .next (State.fresh cfg)) ∧
  (∀ s : State, s.cfg.debug = true → s.runState = .running → step s = .refused .debugDump)

/-- `load` before the first step changes the program and nothing else, whatever the program (R127). That the last one
counts is the spec's own decision D12, and that "before the first step" is IP -1 and Running is read from the spec by
inference (DEDUCED, log entry 20). -/
def Obligations.LoadReplacesTheProgramOnly : Prop :=
  ∀ (s : State) (p : List Word), s.ip = -1 → s.runState = .running →
    ∃ t, hostLoad p s = .next t ∧ t = { s with program := p } ∧ (∀ i : Nat, memRead t i = p[i]?) ∧
      ∀ q, hostLoad q t = .next { s with program := q }

/-- After any step `load` is refused (R127, R137, D12; "after the first step" as log entry 20 reads it, DEDUCED). -/
def Obligations.LoadRefusedAfterAStep : Prop :=
  ∀ (s t : State) (p : List Word), step s = .next t → hostLoad p t = .refused .loadAfterFirstStep

/-- `run` on a machine whose run state is terminal is refused; otherwise what it returns is terminal (R128, R137, D11). -/
def Obligations.RunReturnsTerminal : Prop :=
  ∀ s : State,
    (s.terminal → hostRun s = .refused .secondRun) ∧
    (∀ t, hostRun s = .next t → t.terminal) ∧
    (s.Enabled → ∃ t, hostRun s = .next t)

/-- A byte image of a program, in either byte order, holds that program and no other (R41, D13). In the little image the
first byte of a word is its bits 7..0 and the last its bits 31..24; in the big image the first is its bits 31..24 and the
last its bits 7..0. An image holds a program exactly when it is made of whole words (the model's choice, DESIGN CHOICE of
log entry 21). What "little" and "big" mean is general usage, not the spec's (PRESUMED, log entry 26). -/
def Obligations.ByteImageHoldsTheProgram : Prop :=
  (∀ (order : ByteOrder) (ws : List Word),
    wordsOfImage order (imageOfWords order ws) = some ws ∧ (imageOfWords order ws).length = 4 * ws.length) ∧
  (∀ (order : ByteOrder) (bytes : List Byte),
    ((wordsOfImage order bytes).isSome ↔ 4 ∣ bytes.length) ∧
    ∀ ws, wordsOfImage order bytes = some ws → bytes = imageOfWords order ws) ∧
  (∀ (ws : List Word) (i : Nat) (w : Word) (k : Nat), ws[i]? = some w → k < 4 →
    (imageOfWords .little ws)[4 * i + k]? = some (w.extractLsb' (8 * k) 8) ∧
    (imageOfWords .big ws)[4 * i + k]? = some (w.extractLsb' (24 - 8 * k) 8))

/-- An instruction of the opcode table placed for the next fetch stands at the next fetch index (R24, R38), and nothing
but the program changes. -/
def Obligations.PlacedWordsComeNext : Prop :=
  ∀ (s : State) (nbits w : Nat), -1 ≤ s.ip →
    (∃ rest, (s.withFetchWord nbits w).ahead = tableWords nbits w ++ rest) ∧
    s.withFetchWord nbits w = { s with program := (s.withFetchWord nbits w).program } ∧
    ∀ i : Nat, (i : Int) ≤ s.ip → (i : Int) < progLen s → memRead (s.withFetchWord nbits w) i = memRead s i

/-! ### The engine -/

/-- A step runs the instruction decoded from the words at the next fetch index, on the state whose IP has moved past all
of them (R27, R75, R76). -/
def Obligations.StepRunsDecodedInstruction : Prop :=
  ∀ (s : State) (i : Instr) (rest : List Word), s.Enabled → decode s.cfg.opc s.ahead = .ok (i, rest) →
    step s = exec i { s with ip := s.ip + i.length }

/-- A step is enabled exactly in Running; in Halted, Exhausted and Faulted none is (R71; Faulted by D4 and D11; the
premises are R14 and R26). That the model then answers a refusal is log entry 10 (DEDUCED). -/
def Obligations.StepEnabledExactlyInRunning : Prop :=
  ∀ s : State, s.cfg.debug = false → -1 ≤ s.ip →
    ((∃ t, step s = .next t) ↔ s.runState = .running) ∧
    (s.runState ≠ .running → step s = .refused (.notRunning s.runState))

/-- With no next word at an instruction boundary the step logs Exhausted, enters Exhausted and changes nothing else
(R72; the test is D3). -/
def Obligations.StepExhaustsAtTheEnd : Prop :=
  ∀ s : State, s.Enabled → progLen s ≤ s.ip + 1 →
    step s = .next { s with logs := s.logs ++ [.exhausted], runState := .exhausted }

/-- An instruction whose operand words are cut off by the end of the program raises ProgramTruncated: the record is
`(ProgramTruncated, N, 0)`, the IP is left at `N`, and nothing else changes (R73, R108, R110; D4, D14). -/
def Obligations.TruncatedInstructionFaults : Prop :=
  ∀ s : State, s.Enabled → decode s.cfg.opc s.ahead = .error .truncated →
    step s = .next { s with
      ip := progLen s
      runState := .faulted
      fault := some { cause := .programTruncated, fip := progLen s, fword := 0 } }

/-- Policy `Ignore` (R103): an unknown opcode word is consumed and nothing else happens; the words after it come next,
and where there are none the next step ends Exhausted. -/
def Obligations.UnknownOpcodeIgnored : Prop :=
  ∀ (s : State) (w : Word) (rest : List Word), s.Enabled → s.cfg.policy = .ignore →
    s.ahead = w :: rest → w ∉ s.cfg.opc.values →
    ∃ t, step s = .next t ∧ t = { s with ip := s.ip + 1 } ∧ t.ahead = rest ∧
      (rest = [] → step t = .next { t with logs := t.logs ++ [.exhausted], runState := .exhausted })

/-- Policy `Fault` (R104, R109): an unknown opcode word raises UnknownOpcode; the IP is left at the word, the record is
`(UnknownOpcode, ip, w)` (D14), and nothing else changes. -/
def Obligations.UnknownOpcodeFaults : Prop :=
  ∀ (s : State) (w : Word) (rest : List Word), s.Enabled → s.cfg.policy = .fault →
    s.ahead = w :: rest → w ∉ s.cfg.opc.values →
    step s = .next { s with
      ip := s.ip + 1
      runState := .faulted
      fault := some { cause := .unknownOpcode, fip := s.ip + 1, fword := w } }

/-- The IP changes only by the fetch primitive, which adds exactly 1; no instruction, no unknown opcode and no exhaustion
writes it, so a step never moves it back (R25). That a fetch which raises ProgramTruncated has moved it by 1 too is R73
with the spec's own decision D4 (the increment comes before the bound test; log entry 9). -/
def Obligations.IpChangesByFetchOnly : Prop :=
  (∀ s t w, fetchNext s = .word w t → t = { s with ip := s.ip + 1 }) ∧
  (∀ s t, fetchNext s = .trapped t → t.ip = s.ip + 1) ∧
  (∀ i s t, exec i s = .next t → t.ip = s.ip) ∧
  (∀ w s t, execUnknown w s = .next t → t.ip = s.ip) ∧
  (∀ s, (exhaust s).ip = s.ip) ∧
  (∀ s t, step s = .next t → s.ip ≤ t.ip ∧ (t.runState = .running → s.ip < t.ip))

/-- Faults are precise (R110, R111): a step that ends in Faulted has changed the IP, the run state and the fault record
and nothing else. The run state Faulted and the record are the spec's own decisions D4 and D14 (log entry 9). -/
def Obligations.FaultsArePrecise : Prop :=
  ∀ s t : State, step s = .next t → t.runState = .faulted →
    t = { s with ip := t.ip, runState := .faulted, fault := t.fault } ∧ s.ip < t.ip ∧
      ∃ r, t.fault = some r ∧ r.fip = t.ip

/-- No step changes the program, the launch parameters, the stack or the stack pointer (R32, R36, R39, R50). -/
def Obligations.StepKeepsLaunchParameters : Prop :=
  ∀ s t : State, step s = .next t →
    t.program = s.program ∧ t.cfg = s.cfg ∧ t.stack = s.stack ∧ t.sp = s.sp ∧ ∀ i, memRead t i = memRead s i

/-- A step reads neither the stack, nor the stack pointer, nor the set of assigned keys: two states that differ in them
only step to the same outcome, and to states that differ in them only (R32, R34). That the set gains the destination key
of Load, Add and Subtract is R34 from general knowledge, the spec's own choice D18 (log entry 17). -/
def Obligations.InertStateIsUnread : Prop :=
  ∀ (s : State) (stack : Vector Value 128) (sp : Int) (written : KeySet),
    step { s with stack := stack, sp := sp, written := written } =
      mapNext (fun t => { t with
        stack := stack
        sp := sp
        written := match decode s.cfg.opc s.ahead with
          | .ok (.load k _, _) => written.add k
          | .ok (.add k _, _) => written.add k
          | .ok (.subtract k _, _) => written.add k
          | _ => written }) (step s)

/-- One step by the phases CHECK, FETCH_OP, DECODE, FETCH_OPND and EXECUTE is the atomic step (R77, R78). The phases and
the atomic step are the spec's own decisions D16 and D17; the phase machine with its latches is the model's (DESIGN
CHOICE, log entry 24). -/
def Obligations.PhasesRefineStep : Prop :=
  ∀ s : State, s.runState = .running → s.cfg.debug = false →
    stepByPhases s = mapNext atEnd (step s)

/-- Inside a step whose opcode word stands at index `a`, each phase that follows another is entered with the IP that
R27 and R77 give it; a whole instruction leaves the IP at `a + L - 1`. The phases are the spec's own decision D16 and the
phase machine is the model's (DESIGN CHOICE, log entry 24). -/
def Obligations.PhasesCarryTheIp : Prop :=
  ∀ (a : Int) (b b' : Block), ipOnEntry a b.phase = some b.core.ip → phaseStep b = .next b' →
    (atBoundary b' = false → ipOnEntry a b'.phase = some b'.core.ip) ∧
    (∀ d u v, b.phase = .execute d u v → b'.core.ip = a + operandCount d)

/-! ### The register file and the ALU -/

/-- A register write replaces one register's value and leaves every other one, for any state; and a step changes a
register only where the next instruction is a Load, an Add or a Subtract, with that register as its destination (R21). -/
def Obligations.RegisterWriteReplacesOne : Prop :=
  (∀ (s : State) (k : RegKey) (v : Value),
    readReg (writeReg k v s) k = v ∧ ∀ k', k' ≠ k → readReg (writeReg k v s) k' = readReg s k') ∧
  (∀ (s t : State) (k : RegKey), step s = .next t → readReg t k ≠ readReg s k →
    ∃ i rest, decode s.cfg.opc s.ahead = .ok (i, rest) ∧
      ((∃ v, i = .load k v) ∨ (∃ src, i = .add k src) ∨ (∃ src, i = .subtract k src)))

/-- Two register files in canonical form that read alike are the same data, and a write keeps the form (R20, R21; the
form is the model's, log entry 4). -/
def Obligations.RegisterFileIsCanonical : Prop :=
  (∀ x y : RegFile, x.wf → y.wf → (∀ k, x.get k = y.get k) → x = y) ∧
  (∀ (x : RegFile) (k : RegKey) (v : Value), x.wf → (x.set k v).wf)

/-- The ALU's result is the one 64-bit signed value congruent to the exact sum or difference modulo `2^64`, and its bits
are those of unsigned addition or subtraction (R91, R92; wrapping is D6). -/
def Obligations.AluWrapsTheExactResult : Prop :=
  ∀ a b : Value,
    (∀ m : Int, -2 ^ 63 ≤ m → m < 2 ^ 63 →
      ((alu .add a b).toInt = m ↔ (2 : Int) ^ 64 ∣ m - (a.toInt + b.toInt)) ∧
      ((alu .subtract a b).toInt = m ↔ (2 : Int) ^ 64 ∣ m - (a.toInt - b.toInt))) ∧
    alu .add a b = a + b ∧ alu .subtract a b = a - b

/-- The widened immediate has the signed value of the word, its low 32 bits are the word and its high 32 bits are copies
of the word's bit 31 (R86); a word and its key are the same unsigned number (R15, R58). -/
def Obligations.OperandWordsWiden : Prop :=
  ∀ w : Word,
    (sext64 w).toInt = w.toInt ∧ (∀ i < 32, (sext64 w).getLsbD i = w.getLsbD i) ∧
    (∀ i, 32 ≤ i → i < 64 → (sext64 w).getLsbD i = w.getLsbD 31) ∧
    (u32 w).toNat = w.toNat ∧ regWord (u32 w) = w

/-! ### What each instruction does -/

/-- Load completes in every state: the register reads the immediate's signed value, and nothing but that register and its
place among the assigned keys changes (R21, R85). That its key joins the assigned ones is R34 from general knowledge, the
spec's own choice D18 (log entry 17). -/
def Obligations.ExecLoadResult : Prop :=
  ∀ (reg : RegKey) (value : Word) (s : State), ∃ t, exec (.load reg value) s = .next t ∧
    (readReg t reg).toInt = value.toInt ∧ s.OnlyRegChanges t reg ∧ s.SameRest t ∧
    t.ip = s.ip ∧ t.runState = s.runState ∧ t.out = s.out

/-- Add and Subtract complete in every state: the destination reads the wrapped sum or difference of what both registers
read before, and nothing but that register and its place among the assigned keys changes (R52, R88, R89; wrapping is D6, log
entry 7). That the destination's key joins the assigned ones is R34 from general knowledge, the spec's own choice D18
(log entry 17). -/
def Obligations.ExecAddSubtractResult : Prop :=
  ∀ (dst src : RegKey) (s : State),
    (∃ t, exec (.add dst src) s = .next t ∧ readReg t dst = readReg s dst + readReg s src ∧
      s.OnlyRegChanges t dst ∧ s.SameRest t ∧ t.ip = s.ip ∧ t.runState = s.runState ∧ t.out = s.out) ∧
    (∃ t, exec (.subtract dst src) s = .next t ∧ readReg t dst = readReg s dst - readReg s src ∧
      s.OnlyRegChanges t dst ∧ s.SameRest t ∧ t.ip = s.ip ∧ t.runState = s.runState ∧ t.out = s.out)

/-- Print completes in every state: one event with the register's value is appended to standard output, and nothing else
changes (R96). -/
def Obligations.ExecPrintResult : Prop :=
  ∀ (reg : RegKey) (s : State), ∃ t, exec (.print reg) s = .next t ∧
    t.out = s.out ++ [.value (readReg s reg)] ∧ s.SameRegs t ∧ s.SameRest t ∧
    t.ip = s.ip ∧ t.runState = s.runState

/-- Halt completes in every state: the halt notice is appended to standard output, the run state is Halted, and nothing
else changes (R102). -/
def Obligations.ExecHaltResult : Prop :=
  ∀ s : State, ∃ t, exec .halt s = .next t ∧
    t.out = s.out ++ [.haltNotice] ∧ t.runState = .halted ∧ s.SameRegs t ∧ s.SameRest t ∧ t.ip = s.ip

/-- Load as a step, for every binding (R85): three words are consumed, the register comes to hold the sign-extended
immediate and no other register changes; with an operand word missing the step raises ProgramTruncated (D4, D14, log
entry 9) and no register is written. That the register's key joins the assigned ones is R34 from general knowledge, the
spec's own choice D18 (log entry 17). -/
def Obligations.LoadStep : Prop :=
  ∀ s : State, s.Enabled → s.cfg.opc.wf →
    (∀ r v rest, s.ahead = s.cfg.opc.load :: r :: v :: rest →
      ∃ t, step s = .next t ∧ readReg t (u32 r) = v.signExtend 64 ∧ s.OnlyRegChanges t (u32 r) ∧
        s.SameRest t ∧ t.ip = s.ip + 3 ∧ t.runState = .running ∧ t.out = s.out) ∧
    (s.ahead = [s.cfg.opc.load] ∨ (∃ r, s.ahead = [s.cfg.opc.load, r]) →
      ∃ t, step s = .next t ∧ s.EndsTruncated t ∧ s.SameRegs t ∧ t.out = s.out)

/-- Add as a step, for every binding (R88; wrapping is D6, R91): three words are consumed and the destination comes to
hold the sum of both registers as they were; with an operand word missing no register is written (the fault's form is D4
and D14, log entry 9). That the destination's key joins the assigned ones is R34 from general knowledge, the spec's own
choice D18 (log entry 17). -/
def Obligations.AddStep : Prop :=
  ∀ s : State, s.Enabled → s.cfg.opc.wf →
    (∀ d r rest, s.ahead = s.cfg.opc.add :: d :: r :: rest →
      ∃ t, step s = .next t ∧
        (readReg t (u32 d)).toInt = ((readReg s (u32 d)).toInt + (readReg s (u32 r)).toInt).bmod (2 ^ 64) ∧
        s.OnlyRegChanges t (u32 d) ∧ s.SameRest t ∧ t.ip = s.ip + 3 ∧ t.runState = .running ∧ t.out = s.out) ∧
    (s.ahead = [s.cfg.opc.add] ∨ (∃ d, s.ahead = [s.cfg.opc.add, d]) →
      ∃ t, step s = .next t ∧ s.EndsTruncated t ∧ s.SameRegs t ∧ t.out = s.out)

/-- Subtract as a step, for every binding (R89; wrapping is D6, R91): three words are consumed and the destination comes
to hold itself less the source; with an operand word missing no register is written (the fault's form is D4 and D14, log
entry 9). That the destination's key joins the assigned ones is R34 from general knowledge, the spec's own choice D18
(log entry 17). -/
def Obligations.SubtractStep : Prop :=
  ∀ s : State, s.Enabled → s.cfg.opc.wf →
    (∀ d r rest, s.ahead = s.cfg.opc.subtract :: d :: r :: rest →
      ∃ t, step s = .next t ∧
        (readReg t (u32 d)).toInt = ((readReg s (u32 d)).toInt - (readReg s (u32 r)).toInt).bmod (2 ^ 64) ∧
        s.OnlyRegChanges t (u32 d) ∧ s.SameRest t ∧ t.ip = s.ip + 3 ∧ t.runState = .running ∧ t.out = s.out) ∧
    (s.ahead = [s.cfg.opc.subtract] ∨ (∃ d, s.ahead = [s.cfg.opc.subtract, d]) →
      ∃ t, step s = .next t ∧ s.EndsTruncated t ∧ s.SameRegs t ∧ t.out = s.out)

/-- Print as a step, for every binding (R96): two words are consumed and one event with the register's full value is
appended; with the operand word missing nothing is emitted. No register is written either way. -/
def Obligations.PrintStep : Prop :=
  ∀ s : State, s.Enabled → s.cfg.opc.wf →
    (∀ r rest, s.ahead = s.cfg.opc.print :: r :: rest →
      ∃ t, step s = .next t ∧ t.out = s.out ++ [.value (readReg s (u32 r))] ∧ s.SameRegs t ∧
        s.SameRest t ∧ t.ip = s.ip + 2 ∧ t.runState = .running) ∧
    (s.ahead = [s.cfg.opc.print] →
      ∃ t, step s = .next t ∧ s.EndsTruncated t ∧ s.SameRegs t ∧ t.out = s.out)

/-- Halt as a step, for every binding and whatever words follow (R102): one word is consumed, the halt notice is
appended, the run state is Halted with the IP at the Halt word, and nothing is logged. That no step follows is R71, and
that the model then answers a refusal is log entry 10 (DEDUCED). -/
def Obligations.HaltStep : Prop :=
  ∀ (s : State) (rest : List Word), s.Enabled → s.cfg.opc.wf → s.ahead = s.cfg.opc.halt :: rest →
    ∃ t, step s = .next t ∧ t.out = s.out ++ [.haltNotice] ∧ t.runState = .halted ∧ t.ip = s.ip + 1 ∧
      memRead t t.ip = some s.cfg.opc.halt ∧ s.SameRegs t ∧ s.SameRest t ∧
      step t = .refused (.notRunning .halted)

/-- One register as both operands (R93): Add doubles it, wrapped (D6), and Subtract clears it. -/
def Obligations.SameRegisterOperands : Prop :=
  ∀ (k : RegKey) (s : State),
    (∃ t, exec (.add k k) s = .next t ∧ readReg t k = wrap64 (2 * (readReg s k).toInt)) ∧
    (∃ t, exec (.subtract k k) s = .next t ∧ readReg t k = 0)

/-- Two immediates loaded in different registers, added or subtracted and printed, emit the exact sum or difference; in
one register they emit twice the second, or 0 (R95). Each instruction is executed on the state the one before left. -/
def Obligations.LoadedValuesAddUp : Prop :=
  ∀ (r1 r2 : RegKey) (a b : Word) (s0 s1 s2 s3 s4 t3 t4 : State),
    exec (.load r1 a) s0 = .next s1 → exec (.load r2 b) s1 = .next s2 →
    exec (.add r1 r2) s2 = .next s3 → exec (.print r1) s3 = .next s4 →
    exec (.subtract r1 r2) s2 = .next t3 → exec (.print r1) t3 = .next t4 →
    ∃ sum difference : Value, s4.out = s0.out ++ [.value sum] ∧ t4.out = s0.out ++ [.value difference] ∧
      sum.toInt = (if r1 = r2 then 2 * b.toInt else a.toInt + b.toInt) ∧
      difference.toInt = (if r1 = r2 then 0 else a.toInt - b.toInt)

/-! ### Output -/

/-- At most one event leaves the core in a step, on one of its two streams: a value only by a Print of the register that
holds it, the halt notice only by Halt, the exhaustion event only with Exhausted (R97, R98). -/
def Obligations.OneOutputEventPerStep : Prop :=
  ∀ s t : State, step s = .next t →
    (t.out = s.out ∧ t.logs = s.logs ∧ t.runState ≠ .halted ∧ t.runState ≠ .exhausted) ∨
    (t.out = s.out ∧ t.logs = s.logs ++ [.exhausted] ∧ t.runState = .exhausted ∧ s.ahead = []) ∨
    (∃ k rest, decode s.cfg.opc s.ahead = .ok (.print k, rest) ∧
      t.out = s.out ++ [.value (readReg s k)] ∧ t.logs = s.logs ∧ t.runState = .running) ∨
    (∃ rest, decode s.cfg.opc s.ahead = .ok (.halt, rest) ∧
      t.out = s.out ++ [.haltNotice] ∧ t.logs = s.logs ∧ t.runState = .halted)

/-- The output port shows exactly the event that the step appended, the log port whether one was logged, the fault code
port 0, 1 or 2 exactly where no fault, ProgramTruncated or UnknownOpcode is recorded, the other fault ports the record's
`fip` and `fword`, and the program port the next word (R29, R112, R140). The codes and the record are the spec's own
decision D14, the signals its D16; `progAddr` as the index of the fetch to come is the model's (DESIGN CHOICE, log
entry 23). -/
def Obligations.PortsShowTheStep : Prop :=
  ∀ s t : State, step s = .next t →
    (∀ e, (ports s t).outEvent = some e ↔ t.out = s.out ++ [e]) ∧
    ((ports s t).logValid = true ↔ t.runState = .exhausted) ∧
    (ports s t).runState = t.runState ∧
    ((ports s t).faultCause = 0 ↔ t.fault = none) ∧
    ((ports s t).faultCause = 1 ↔ ∃ r, t.fault = some r ∧ r.cause = .programTruncated) ∧
    ((ports s t).faultCause = 2 ↔ ∃ r, t.fault = some r ∧ r.cause = .unknownOpcode) ∧
    (∀ r, t.fault = some r → (ports s t).faultIp = some r.fip ∧ (ports s t).faultWord = some r.fword) ∧
    (t.fault = none → (ports s t).faultIp = none ∧ (ports s t).faultWord = none) ∧
    (ports s t).progAddr = t.ip + 1 ∧ (ports s t).progData = t.ahead.head?

/-- What the fault ports show after each of the two exceptions: code 1, the program's length and word 0 after an
instruction cut off by the end of the program (R108), and code 2, the index of the opcode word and that word after an
unknown opcode under policy `Fault` (R109). The outcome, the codes and the record are the spec's own decisions D4 and
D14 (log entry 9), the signals its D16 (log entry 23). -/
def Obligations.FaultPortsShowTheCause : Prop :=
  ∀ s : State, s.Enabled →
    (decode s.cfg.opc s.ahead = .error .truncated →
      ∃ t, step s = .next t ∧ (ports s t).runState = .faulted ∧ (ports s t).faultCause = 1 ∧
        (ports s t).faultIp = some (progLen s) ∧ (ports s t).faultWord = some 0 ∧ (ports s t).outEvent = none) ∧
    (∀ w, decode s.cfg.opc s.ahead = .error (.unknownOpcode w) → s.cfg.policy = .fault →
      ∃ t, step s = .next t ∧ (ports s t).runState = .faulted ∧ (ports s t).faultCause = 2 ∧
        (ports s t).faultIp = some (s.ip + 1) ∧ (ports s t).faultWord = some w ∧ (ports s t).outEvent = none)

/-- A fetch of a phase is answered at the program port (R73, R77, R140): the address is `ip + 1` after the increment, the
data valid exactly below `prog_len`; valid data is what the phase latches with the IP at the address, and where no data
is valid the phase ends in ProgramTruncated. The phases and the signals are the spec's own decision D16, their form the
model's (DESIGN CHOICE, log entries 23 and 24). -/
def Obligations.FetchPhaseTakesThePortWord : Prop :=
  ∀ (b : Block) (f : ProgFetch), -1 ≤ b.core.ip → phaseFetch b = some f →
    f.addr = b.core.ip + 1 ∧ f.data = b.core.program[f.addr.toNat]? ∧ (f.data.isSome ↔ f.addr < progLen b.core) ∧
    (∀ w, f.data = some w →
      (b.phase = .fetchOp → phaseStep b = .next { phase := .decode w, core := { b.core with ip := f.addr } }) ∧
      (∀ d got first, b.phase = .fetchOperand d got first →
        phaseStep b = .next (afterOperand d got first w { b.core with ip := f.addr }))) ∧
    (f.data = none → phaseStep b = .next (atEnd (raiseProgramTruncated { b.core with ip := f.addr })))

/-- The program port shows every fetch of a step, the operands' as well as the opcode's (R74, R75, R140): the addresses
are the indices from the old `ip + 1` to the new IP, each once and in order; the data at each is the program's word,
valid exactly below `prog_len`; and the valid data are together the words that the step consumed. The signals are the
spec's own decision D16, their form the model's (DESIGN CHOICE, log entry 23). -/
def Obligations.ProgramPortShowsEveryFetch : Prop :=
  ∀ s t : State, step s = .next t →
    (ports s t).fetches.map (fun f => f.addr) =
      (List.range (t.ip - s.ip).toNat).map (fun j : Nat => s.ip + 1 + (j : Int)) ∧
    (∀ f ∈ (ports s t).fetches,
      f.data = memRead s f.addr ∧ (f.data.isSome ↔ f.addr < ((ports s t).progLen : Int))) ∧
    (ports s t).fetches.filterMap (fun f => f.data) = s.ahead.take (t.ip - s.ip).toNat ∧
    ∀ i rest, decode s.cfg.opc s.ahead = .ok (i, rest) →
      (ports s t).fetches.filterMap (fun f => f.data) = encode s.cfg.opc i

/-- `start` is the host's `run()` (R128, R140): not raised, no step is taken and nothing is shown; raised on an enabled
machine, the core runs to a terminal state, the ports show each output event, each log event and each fetched word once
and in order (R81), and the last step shows the terminal run state; raised on a terminal machine it is refused (D11).
The signals are the spec's own decision D16, `start` as one event the model's reading (DESIGN CHOICE, log entry 23). -/
def Obligations.StartRunsTheCore : Prop :=
  ∀ s : State,
    (onStart false s = .next s ∧ (runPorts false s).steps = []) ∧
    (s.terminal → onStart true s = .refused .secondRun ∧ (runPorts true s).steps = []) ∧
    (s.Enabled → ∃ t, onStart true s = .next t ∧ onStart true s = hostRun s ∧ t.terminal ∧
      t.out = s.out ++ (runPorts true s).steps.filterMap (fun p => p.outEvent) ∧
      t.logs = s.logs ++ ((runPorts true s).steps.filter (fun p => p.logValid)).map (fun _ => LogEvent.exhausted) ∧
      ((runPorts true s).steps.flatMap (fun p => p.fetches)).map (fun f => f.addr) =
        (List.range (t.ip - s.ip).toNat).map (fun j : Nat => s.ip + 1 + (j : Int)) ∧
      (runPorts true s).steps.getLast?.map (fun p => p.runState) = some t.runState)

/-- The line of a Value event (R99, D10): the digits of the signed value's magnitude in decimal, most significant first,
with no leading zero but for 0 itself, a `-` before them exactly for a negative value, and one newline. -/
def Obligations.ValueLineIsDecimal : Prop :=
  ∀ v : Value, ∃ digits : List Nat,
    renderOutEvent (.value v) =
      (if v.toInt < 0 then ['-'] else []) ++ digits.map (fun d => Char.ofNat (48 + d)) ++ ['\n'] ∧
    (∀ d ∈ digits, d < 10) ∧ digits.foldl (fun n d => 10 * n + d) 0 = v.toInt.natAbs ∧
    digits ≠ [] ∧ (digits.head? = some 0 → digits = [0])

/-- The line of a HaltNotice event (R100). -/
def Obligations.HaltNoticeLine : Prop :=
  renderOutEvent .haltNotice = "halting, please wait".toList ++ ['\n']

/-- Each exhaustion event is rendered as one line, whatever its text (R101, D19). -/
def Obligations.ExhaustionIsOneLogLine : Prop :=
  ∀ logs : List LogEvent, (renderLogs logs).count '\n' = logs.length ∧
    (logs ≠ [] → (renderLogs logs).getLast? = some '\n')

/-! ### Invariants and runs -/

/-- Every machine that construction makes under an admissible configuration has the invariant (R125, R130). The
invariant's parts that are the spec's or the model's choices are those named at `StepKeepsInvariant`. -/
def Obligations.FreshStateHasInvariant : Prop :=
  ∀ cfg : LaunchConfig, cfg.wf → (State.fresh cfg).Inv

/-- `load` before the first step keeps the invariant (R127; "before the first step" is log entry 20, DEDUCED). The
invariant's parts that are choices are those named at `StepKeepsInvariant`. -/
def Obligations.LoadKeepsInvariant : Prop :=
  ∀ (s t : State) (p : List Word), s.Inv → hostLoad p s = .next t → t.Inv

/-- Every step keeps the invariant: the range of the IP (R26), the exhaustion event once and only in Exhausted (R81), the
halt notice last and only in Halted (R82, R102). Parts of it are choices: the canonical form of the register file and of
the assigned keys is the model's (DESIGN CHOICE, log entry 4); that Exhausted means the end of the program rests on the
spec's own test D3 (R72, log entry 8); the run state Faulted, the IP it leaves and the fault record that says why are its
D4 and D14 (R29, R108, R109, log entry 9); which keys are assigned, so that a register that is not 0 is among them, is its
D18 (R34, log entry 17). -/
def Obligations.StepKeepsInvariant : Prop :=
  ∀ s t : State, s.Inv → step s = .next t → t.Inv

/-- A run of at most `k` steps from an invariant state stops on no fault and no refusal, keeps the invariant, and
consumes at least `k` words while it stays Running (R70, R80, R81). The invariant's parts that are choices are those
named at `StepKeepsInvariant`. -/
def Obligations.RunConsumesAWordPerStep : Prop :=
  ∀ (k : Nat) (s : State), s.Inv →
    ∃ t, runLoop k s = .next t ∧ t.Inv ∧ t.program = s.program ∧ (t.runState = .running → s.ip + k ≤ t.ip)

/-- From every Running state with the invariant the run is in a terminal run state after at most `N - ip` steps; from
reset, where the IP is -1, that is at most `N + 1` (R80). The invariant's parts that are choices are those named at
`StepKeepsInvariant`. -/
def Obligations.EveryRunTerminates : Prop :=
  ∀ (s : State) (k : Nat), s.Inv → progLen s - s.ip ≤ k →
    ∃ t, runLoop k s = .next t ∧ t.terminal ∧ t.Inv
end

