-- ==== Sys2Proof/Laws/Decode.lean ====
section
/-! SUPPORT. The small lemmas of the encoding: keys and their words, and the opcode compare for a binding whose five
values are distinct. -/

namespace Sys2Proof

@[simp] theorem u32_regWord (k : RegKey) : u32 (regWord k) = k := by
  apply BitVec.eq_of_toNat_eq
  simp [u32, regWord]

@[simp] theorem regWord_u32 (w : Word) : regWord (u32 w) = w := by
  apply BitVec.eq_of_toNat_eq
  simp [u32, regWord]

theorem u32_toNat (w : Word) : (u32 w).toNat = w.toNat := by simp [u32]

/-- The ten inequalities that distinct opcode values come to (R62). -/
theorem Opc.wf_iff (o : Opc) : o.wf ↔
    (o.load ≠ o.add ∧ o.load ≠ o.subtract ∧ o.load ≠ o.print ∧ o.load ≠ o.halt) ∧
    (o.add ≠ o.subtract ∧ o.add ≠ o.print ∧ o.add ≠ o.halt) ∧
    (o.subtract ≠ o.print ∧ o.subtract ≠ o.halt) ∧ o.print ≠ o.halt := by
  simp [Opc.wf, Opc.values]

theorem decodeOp_load (o : Opc) : decodeOp o o.load = .load := by simp [decodeOp]

theorem decodeOp_add {o : Opc} (h : o.wf) : decodeOp o o.add = .add := by
  have := (Opc.wf_iff o).1 h
  simp [decodeOp, Ne.symm this.1.1]

theorem decodeOp_subtract {o : Opc} (h : o.wf) : decodeOp o o.subtract = .subtract := by
  have := (Opc.wf_iff o).1 h
  simp [decodeOp, Ne.symm this.1.2.1, Ne.symm this.2.1.1]

theorem decodeOp_print {o : Opc} (h : o.wf) : decodeOp o o.print = .print := by
  have := (Opc.wf_iff o).1 h
  simp [decodeOp, Ne.symm this.1.2.2.1, Ne.symm this.2.1.2.1, Ne.symm this.2.2.1.1]

theorem decodeOp_halt {o : Opc} (h : o.wf) : decodeOp o o.halt = .halt := by
  have := (Opc.wf_iff o).1 h
  simp [decodeOp, Ne.symm this.1.2.2.2, Ne.symm this.2.1.2.2, Ne.symm this.2.2.1.2, Ne.symm this.2.2.2]

/-- Everything that decoding an opcode word can answer, for any binding (R65). -/
theorem decodeOp_cases (o : Opc) (w : Word) :
    (decodeOp o w = .load ∧ w = o.load) ∨ (decodeOp o w = .add ∧ w = o.add) ∨
    (decodeOp o w = .subtract ∧ w = o.subtract) ∨ (decodeOp o w = .print ∧ w = o.print) ∨
    (decodeOp o w = .halt ∧ w = o.halt) ∨ (decodeOp o w = .unknown w ∧ w ∉ o.values) := by
  unfold decodeOp
  split_ifs <;> simp_all [Opc.values]

theorem decodeOp_unknown {o : Opc} {w : Word} (h : w ∉ o.values) : decodeOp o w = .unknown w := by
  simp [Opc.values] at h
  simp [decodeOp, h]

end Sys2Proof
end

