-- ==== Sys2Proof/Laws/State.lean ====
section
/-! SUPPORT. One lemma per field of State and per named update of Ops.lean, so that no later proof unfolds a record
update; and what each update leaves of the derived reads. -/

namespace Sys2Proof.Machine

variable (s : State)

/-! ### writeReg: the register write (R21, R34) -/

@[simp] theorem writeReg_x (k : RegKey) (v : Value) : (writeReg k v s).x = s.x.set k v := rfl
@[simp] theorem writeReg_ip (k : RegKey) (v : Value) : (writeReg k v s).ip = s.ip := rfl
@[simp] theorem writeReg_runState (k : RegKey) (v : Value) : (writeReg k v s).runState = s.runState := rfl
@[simp] theorem writeReg_fault (k : RegKey) (v : Value) : (writeReg k v s).fault = s.fault := rfl
@[simp] theorem writeReg_stack (k : RegKey) (v : Value) : (writeReg k v s).stack = s.stack := rfl
@[simp] theorem writeReg_sp (k : RegKey) (v : Value) : (writeReg k v s).sp = s.sp := rfl
@[simp] theorem writeReg_out (k : RegKey) (v : Value) : (writeReg k v s).out = s.out := rfl
@[simp] theorem writeReg_logs (k : RegKey) (v : Value) : (writeReg k v s).logs = s.logs := rfl
@[simp] theorem writeReg_written (k : RegKey) (v : Value) : (writeReg k v s).written = s.written.add k := rfl
@[simp] theorem writeReg_program (k : RegKey) (v : Value) : (writeReg k v s).program = s.program := rfl
@[simp] theorem writeReg_cfg (k : RegKey) (v : Value) : (writeReg k v s).cfg = s.cfg := rfl
@[simp] theorem writeReg_progLen (k : RegKey) (v : Value) : progLen (writeReg k v s) = progLen s := rfl
@[simp] theorem writeReg_memRead (k : RegKey) (v : Value) (i : Int) : memRead (writeReg k v s) i = memRead s i := rfl

/-! ### emit: an output event (R19) -/

@[simp] theorem emit_x (e : OutEvent) : (emit e s).x = s.x := rfl
@[simp] theorem emit_ip (e : OutEvent) : (emit e s).ip = s.ip := rfl
@[simp] theorem emit_runState (e : OutEvent) : (emit e s).runState = s.runState := rfl
@[simp] theorem emit_fault (e : OutEvent) : (emit e s).fault = s.fault := rfl
@[simp] theorem emit_stack (e : OutEvent) : (emit e s).stack = s.stack := rfl
@[simp] theorem emit_sp (e : OutEvent) : (emit e s).sp = s.sp := rfl
@[simp] theorem emit_out (e : OutEvent) : (emit e s).out = s.out ++ [e] := rfl
@[simp] theorem emit_logs (e : OutEvent) : (emit e s).logs = s.logs := rfl
@[simp] theorem emit_written (e : OutEvent) : (emit e s).written = s.written := rfl
@[simp] theorem emit_program (e : OutEvent) : (emit e s).program = s.program := rfl
@[simp] theorem emit_cfg (e : OutEvent) : (emit e s).cfg = s.cfg := rfl
@[simp] theorem emit_progLen (e : OutEvent) : progLen (emit e s) = progLen s := rfl
@[simp] theorem emit_memRead (e : OutEvent) (i : Int) : memRead (emit e s) i = memRead s i := rfl
@[simp] theorem emit_readReg (e : OutEvent) (k : RegKey) : readReg (emit e s) k = readReg s k := rfl

/-! ### exhaust: the exhaustion of the program (R72) -/

@[simp] theorem exhaust_x : (exhaust s).x = s.x := rfl
@[simp] theorem exhaust_ip : (exhaust s).ip = s.ip := rfl
@[simp] theorem exhaust_runState : (exhaust s).runState = .exhausted := rfl
@[simp] theorem exhaust_fault : (exhaust s).fault = s.fault := rfl
@[simp] theorem exhaust_stack : (exhaust s).stack = s.stack := rfl
@[simp] theorem exhaust_sp : (exhaust s).sp = s.sp := rfl
@[simp] theorem exhaust_out : (exhaust s).out = s.out := rfl
@[simp] theorem exhaust_logs : (exhaust s).logs = s.logs ++ [.exhausted] := rfl
@[simp] theorem exhaust_written : (exhaust s).written = s.written := rfl
@[simp] theorem exhaust_program : (exhaust s).program = s.program := rfl
@[simp] theorem exhaust_cfg : (exhaust s).cfg = s.cfg := rfl
@[simp] theorem exhaust_progLen : progLen (exhaust s) = progLen s := rfl
@[simp] theorem exhaust_memRead (i : Int) : memRead (exhaust s) i = memRead s i := rfl
@[simp] theorem exhaust_readReg (k : RegKey) : readReg (exhaust s) k = readReg s k := rfl

/-! ### enterHalted: the entry to Halted (R102) -/

@[simp] theorem enterHalted_x : (enterHalted s).x = s.x := rfl
@[simp] theorem enterHalted_ip : (enterHalted s).ip = s.ip := rfl
@[simp] theorem enterHalted_runState : (enterHalted s).runState = .halted := rfl
@[simp] theorem enterHalted_fault : (enterHalted s).fault = s.fault := rfl
@[simp] theorem enterHalted_stack : (enterHalted s).stack = s.stack := rfl
@[simp] theorem enterHalted_sp : (enterHalted s).sp = s.sp := rfl
@[simp] theorem enterHalted_out : (enterHalted s).out = s.out := rfl
@[simp] theorem enterHalted_logs : (enterHalted s).logs = s.logs := rfl
@[simp] theorem enterHalted_written : (enterHalted s).written = s.written := rfl
@[simp] theorem enterHalted_program : (enterHalted s).program = s.program := rfl
@[simp] theorem enterHalted_cfg : (enterHalted s).cfg = s.cfg := rfl
@[simp] theorem enterHalted_progLen : progLen (enterHalted s) = progLen s := rfl
@[simp] theorem enterHalted_memRead (i : Int) : memRead (enterHalted s) i = memRead s i := rfl
@[simp] theorem enterHalted_readReg (k : RegKey) : readReg (enterHalted s) k = readReg s k := rfl

/-! ### raiseFault: taking an exception (R110) -/

@[simp] theorem raiseFault_x (c : Cause) (w : Word) : (raiseFault c w s).x = s.x := rfl
@[simp] theorem raiseFault_ip (c : Cause) (w : Word) : (raiseFault c w s).ip = s.ip := rfl
@[simp] theorem raiseFault_runState (c : Cause) (w : Word) : (raiseFault c w s).runState = .faulted := rfl
@[simp] theorem raiseFault_fault (c : Cause) (w : Word) : (raiseFault c w s).fault = some { cause := c, fip := s.ip, fword := w } := rfl
@[simp] theorem raiseFault_stack (c : Cause) (w : Word) : (raiseFault c w s).stack = s.stack := rfl
@[simp] theorem raiseFault_sp (c : Cause) (w : Word) : (raiseFault c w s).sp = s.sp := rfl
@[simp] theorem raiseFault_out (c : Cause) (w : Word) : (raiseFault c w s).out = s.out := rfl
@[simp] theorem raiseFault_logs (c : Cause) (w : Word) : (raiseFault c w s).logs = s.logs := rfl
@[simp] theorem raiseFault_written (c : Cause) (w : Word) : (raiseFault c w s).written = s.written := rfl
@[simp] theorem raiseFault_program (c : Cause) (w : Word) : (raiseFault c w s).program = s.program := rfl
@[simp] theorem raiseFault_cfg (c : Cause) (w : Word) : (raiseFault c w s).cfg = s.cfg := rfl
@[simp] theorem raiseFault_progLen (c : Cause) (w : Word) : progLen (raiseFault c w s) = progLen s := rfl
@[simp] theorem raiseFault_memRead (c : Cause) (w : Word) (i : Int) : memRead (raiseFault c w s) i = memRead s i := rfl
@[simp] theorem raiseFault_readReg (c : Cause) (w : Word) (k : RegKey) : readReg (raiseFault c w s) k = readReg s k := rfl

/-! ### advanceIp: the increment of the IP (R25) -/

@[simp] theorem advanceIp_x : (advanceIp s).x = s.x := rfl
@[simp] theorem advanceIp_ip : (advanceIp s).ip = s.ip + 1 := rfl
@[simp] theorem advanceIp_runState : (advanceIp s).runState = s.runState := rfl
@[simp] theorem advanceIp_fault : (advanceIp s).fault = s.fault := rfl
@[simp] theorem advanceIp_stack : (advanceIp s).stack = s.stack := rfl
@[simp] theorem advanceIp_sp : (advanceIp s).sp = s.sp := rfl
@[simp] theorem advanceIp_out : (advanceIp s).out = s.out := rfl
@[simp] theorem advanceIp_logs : (advanceIp s).logs = s.logs := rfl
@[simp] theorem advanceIp_written : (advanceIp s).written = s.written := rfl
@[simp] theorem advanceIp_program : (advanceIp s).program = s.program := rfl
@[simp] theorem advanceIp_cfg : (advanceIp s).cfg = s.cfg := rfl
@[simp] theorem advanceIp_progLen : progLen (advanceIp s) = progLen s := rfl
@[simp] theorem advanceIp_memRead (i : Int) : memRead (advanceIp s) i = memRead s i := rfl
@[simp] theorem advanceIp_readReg (k : RegKey) : readReg (advanceIp s) k = readReg s k := rfl

/-! ### The two exceptions as the shared one -/

theorem raiseProgramTruncated_eq : raiseProgramTruncated s = raiseFault .programTruncated 0 s := rfl
theorem raiseUnknownOpcode_eq (w : Word) : raiseUnknownOpcode w s = raiseFault .unknownOpcode w s := rfl

end Sys2Proof.Machine
end

