-- ==== Sys2Proof/Laws/Fetch.lean ====
section
/-! SUPPORT. What the fetch primitive and the start of a step can do, said once. -/

namespace Sys2Proof.Machine

/-- The words ahead, one word on. -/
theorem ahead_advance {s : State} {w : Word} {rest : List Word} (hlow : -1 ≤ s.ip)
    (h : s.ahead = w :: rest) : (advanceIp s).ahead = rest := by
  unfold State.ahead at *
  have e : ((advanceIp s).ip + 1).toNat = (s.ip + 1).toNat + 1 := by simp only [advanceIp_ip]; omega
  rw [e, advanceIp_program, ← List.drop_drop, h]
  rfl

/-- There is a next word exactly where the exhaustion check passes (R72). -/
theorem ahead_ne_nil_iff {s : State} (hlow : -1 ≤ s.ip) : s.ahead ≠ [] ↔ s.ip + 1 < progLen s := by
  unfold State.ahead progLen
  rw [ne_eq, List.drop_eq_nil_iff, not_le]
  omega

/-- `FetchNext()` with its tests said of the state before the increment (R73). -/
theorem fetchNext_eq (s : State) : fetchNext s =
    if progLen s ≤ s.ip + 1 then .trapped (raiseProgramTruncated (advanceIp s))
    else match memRead s (s.ip + 1) with
      | some w => .word w (advanceIp s)
      | none   => .stuck (.negativeFetchIndex (s.ip + 1)) := rfl

/-- A fetch with a next word answers it and advances the IP (R73, R74). -/
theorem fetchNext_of_ahead {s : State} {w : Word} {rest : List Word} (hlow : -1 ≤ s.ip)
    (h : s.ahead = w :: rest) : fetchNext s = .word w (advanceIp s) := by
  have hlt : s.ip + 1 < progLen s := (ahead_ne_nil_iff hlow).1 (by simp [h])
  have hget : s.program[(s.ip + 1).toNat]? = some w := by
    unfold State.ahead at h
    rw [← List.head?_drop, h]; rfl
  have hmem : memRead s (s.ip + 1) = some w := by
    unfold memRead
    rw [if_neg (by omega), hget]
  rw [fetchNext_eq, if_neg (by omega), hmem]

/-- A fetch with no next word raises ProgramTruncated (R73, R108). -/
theorem fetchNext_at_end {s : State} (h : progLen s ≤ s.ip + 1) :
    fetchNext s = .trapped (raiseProgramTruncated (advanceIp s)) := by
  rw [fetchNext_eq, if_pos h]

/-- Everything that a fetch can do, for any state (R73): the IP is advanced by 1 whatever comes of it. -/
theorem fetchNext_cases (s : State) :
    (∃ w, memRead s (s.ip + 1) = some w ∧ s.ip + 1 < progLen s ∧ fetchNext s = .word w (advanceIp s)) ∨
    (progLen s ≤ s.ip + 1 ∧ fetchNext s = .trapped (raiseProgramTruncated (advanceIp s))) ∨
    (s.ip + 1 < 0 ∧ fetchNext s = .stuck (.negativeFetchIndex (s.ip + 1))) := by
  by_cases hend : progLen s ≤ s.ip + 1
  · exact .inr (.inl ⟨hend, fetchNext_at_end hend⟩)
  · have key := fetchNext_eq s
    rw [if_neg hend] at key
    cases hm : memRead s (s.ip + 1) with
    | some w => exact .inl ⟨w, rfl, by omega, by rw [key, hm]⟩
    | none =>
      refine .inr (.inr ⟨?_, by rw [key, hm]⟩)
      unfold memRead progLen at *
      split at hm
      · assumption
      · rw [List.getElem?_eq_none_iff] at hm
        omega

/-- A step in an enabled state is the run cycle (R71). -/
theorem beginStep_enabled {s : State} (h : s.Enabled) : beginStep s = runCycle s := by
  unfold beginStep
  rw [h.running]
  simp [h.noDebug]

end Sys2Proof.Machine
end

