-- ==== Sys2Proof/Laws/Registers.lean ====
section
/-! SUPPORT. What the register file and the set of assigned keys do: reading after a write, membership after an
insertion, and that every operation keeps the canonical form. -/

namespace Sys2Proof.Machine

/-! ### Reading -/

theorem RegFile.get_insert (k : RegKey) (v : Value) (x : RegFile) (h : ∀ e ∈ x, e.1 ≠ k) (k' : RegKey) :
    RegFile.get (RegFile.insert k v x) k' = if k' = k then v else RegFile.get x k' := by
  induction x with
  | nil => simp [RegFile.insert, RegFile.get]
  | cons e x ih =>
    obtain ⟨he, hx⟩ := List.forall_mem_cons.1 h
    simp only [RegFile.insert]
    split
    · simp [RegFile.get]
    · simp only [RegFile.get, ih hx]
      split
      · next h' => subst h'; simp [he]
      · rfl

theorem RegFile.get_filter (k : RegKey) (x : RegFile) (k' : RegKey) :
    RegFile.get (x.filter (fun e => e.1 ≠ k)) k' = if k' = k then 0 else RegFile.get x k' := by
  induction x with
  | nil => simp [RegFile.get]
  | cons e x ih =>
    by_cases he : e.1 = k
    · simp only [ne_eq, he, not_true_eq_false, decide_false, Bool.false_eq_true, not_false_eq_true,
        List.filter_cons_of_neg, RegFile.get]
      rw [← he] at ih ⊢
      rw [ih]
      split <;> rfl
    · simp only [ne_eq, he, not_false_eq_true, decide_true, List.filter_cons_of_pos, RegFile.get]
      rw [ih]
      split
      · next h' => subst h'; simp [he]
      · rfl

/-- Reading after a write, for any register file, canonical or not (R21). -/
theorem RegFile.get_set (x : RegFile) (k : RegKey) (v : Value) (k' : RegKey) :
    (x.set k v).get k' = if k' = k then v else x.get k' := by
  unfold RegFile.set
  split
  · next h => subst h; exact RegFile.get_filter k x k'
  · rw [RegFile.get_insert _ _ _ (by simp), RegFile.get_filter]
    split <;> rfl

/-- Reading a register after a write to one (R21). -/
theorem readReg_writeReg (s : State) (k : RegKey) (v : Value) (k' : RegKey) :
    readReg (writeReg k v s) k' = if k' = k then v else readReg s k' :=
  RegFile.get_set s.x k v k'

@[simp] theorem readReg_writeReg_self (s : State) (k : RegKey) (v : Value) :
    readReg (writeReg k v s) k = v := by simp [readReg_writeReg]

theorem readReg_writeReg_ne (s : State) {k k' : RegKey} (v : Value) (h : k' ≠ k) :
    readReg (writeReg k v s) k' = readReg s k' := by simp [readReg_writeReg, h]

/-! ### Membership -/

theorem RegFile.mem_insert (k : RegKey) (v : Value) (x : RegFile) (e : RegKey × Value) :
    e ∈ RegFile.insert k v x ↔ e = (k, v) ∨ e ∈ x := by
  induction x with
  | nil => simp [RegFile.insert]
  | cons a x ih =>
    simp only [RegFile.insert]
    split
    · simp
    · simp [ih, or_left_comm]

theorem RegFile.mem_set (x : RegFile) (k : RegKey) (v : Value) (e : RegKey × Value) :
    e ∈ x.set k v ↔ (e = (k, v) ∧ v ≠ 0) ∨ (e ∈ x ∧ e.1 ≠ k) := by
  unfold RegFile.set
  split
  · next h => simp [h]
  · next h =>
    have h' : v ≠ 0#64 := h
    simp [RegFile.mem_insert, h']

theorem KeySet.mem_insert (k : RegKey) (w : KeySet) (k' : RegKey) :
    k' ∈ KeySet.insert k w ↔ k' = k ∨ k' ∈ w := by
  induction w with
  | nil => simp [KeySet.insert]
  | cons a w ih =>
    simp only [KeySet.insert]
    split
    · simp
    · simp [ih, or_left_comm]

/-- What is in a key set after an addition (R34). -/
@[simp] theorem KeySet.mem_add (w : KeySet) (k k' : RegKey) : k' ∈ w.add k ↔ k' = k ∨ k' ∈ w := by
  unfold KeySet.add
  split
  · next h => constructor
              · exact .inr
              · rintro (rfl | h') <;> assumption
  · exact KeySet.mem_insert k w k'

/-! ### The canonical form -/

theorem RegFile.wf_iff (x : RegFile) :
    x.wf ↔ x.Pairwise (fun a b => a.1.toNat < b.1.toNat) ∧ ∀ e ∈ x, e.2 ≠ 0 := by
  refine and_congr_right fun _ => ?_
  rw [List.mem_map]
  exact ⟨fun h e he h0 => h ⟨e, he, h0⟩, fun h ⟨e, he, h0⟩ => h e he h0⟩

theorem RegFile.pairwise_insert (k : RegKey) (v : Value) (x : RegFile)
    (hx : x.Pairwise (fun a b => a.1.toNat < b.1.toNat)) (hk : ∀ e ∈ x, e.1 ≠ k) :
    (RegFile.insert k v x).Pairwise (fun a b => a.1.toNat < b.1.toNat) := by
  induction x with
  | nil => simp [RegFile.insert]
  | cons e x ih =>
    obtain ⟨he, hx'⟩ := List.pairwise_cons.1 hx
    obtain ⟨hke, hk'⟩ := List.forall_mem_cons.1 hk
    simp only [RegFile.insert]
    split
    · next hlt =>
      refine List.pairwise_cons.2 ⟨?_, hx⟩
      intro a ha
      rcases List.mem_cons.1 ha with rfl | ha
      · exact hlt
      · exact lt_trans hlt (he a ha)
    · next hge =>
      refine List.pairwise_cons.2 ⟨?_, ih hx' hk'⟩
      intro a ha
      rcases (RegFile.mem_insert k v x a).1 ha with rfl | ha
      · have : e.1.toNat ≠ k.toNat := fun h => hke (BitVec.eq_of_toNat_eq h)
        show e.1.toNat < k.toNat
        omega
      · exact he a ha

/-- A write keeps the canonical form of the register file. -/
theorem RegFile.wf_set (x : RegFile) (k : RegKey) (v : Value) (h : x.wf) : (x.set k v).wf := by
  rw [RegFile.wf_iff] at h ⊢
  refine ⟨?_, ?_⟩
  · unfold RegFile.set
    have hf := h.1.filter (fun e => e.1 ≠ k)
    split
    · exact hf
    · exact RegFile.pairwise_insert k v _ hf (by simp)
  · intro e he
    rcases (RegFile.mem_set x k v e).1 he with ⟨rfl, hv⟩ | ⟨he, -⟩
    · exact hv
    · exact h.2 e he

/-- An addition keeps the canonical form of the key set. -/
theorem KeySet.wf_add (w : KeySet) (k : RegKey) (h : w.wf) : (w.add k).wf := by
  unfold KeySet.add
  split
  · exact h
  · next hk =>
    induction w with
    | nil => simp [KeySet.insert, KeySet.wf]
    | cons a w ih =>
      obtain ⟨ha, hw⟩ := List.pairwise_cons.1 h
      have hka : k ≠ a := fun e => hk (by simp [e])
      have hkw : k ∉ w := fun e => hk (by simp [e])
      simp only [KeySet.insert]
      split
      · next hlt =>
        refine List.pairwise_cons.2 ⟨?_, h⟩
        intro b hb
        rcases List.mem_cons.1 hb with rfl | hb
        · exact hlt
        · exact lt_trans hlt (ha b hb)
      · next hge =>
        refine List.pairwise_cons.2 ⟨?_, ih hw hkw⟩
        intro b hb
        rcases (KeySet.mem_insert k w b).1 hb with rfl | hb
        · have : a.toNat ≠ b.toNat := fun e => hka (BitVec.eq_of_toNat_eq e).symm
          omega
        · exact ha b hb

theorem writeReg_keeps_wf (s : State) (k : RegKey) (v : Value) (h : s.x.wf) : (writeReg k v s).x.wf :=
  RegFile.wf_set s.x k v h

theorem writeReg_keeps_written_wf (s : State) (k : RegKey) (v : Value) (h : s.written.wf) :
    (writeReg k v s).written.wf :=
  KeySet.wf_add s.written k h

theorem reset_x_wf : State.reset.x.wf := by decide

theorem reset_written_wf : State.reset.written.wf := by decide

end Sys2Proof.Machine
end

