-- ==== Sys2Proof/Laws/Engine.lean ====
section
/-! SUPPORT. What the operand fetches, the run cycle and the meanings do, one lemma each, for later proofs to cite. -/

namespace Sys2Proof.Machine

/-! ### Operand fetches (R57, R75) -/

theorem fetchOne_of_ahead {s : State} {w : Word} {rest : List Word} (mk : Word → Instr)
    (hlow : -1 ≤ s.ip) (h : s.ahead = w :: rest) : fetchOne mk s = .instr (mk w) (advanceIp s) := by
  unfold fetchOne
  rw [fetchNext_of_ahead hlow h]

theorem fetchOne_at_end {s : State} (mk : Word → Instr) (h : progLen s ≤ s.ip + 1) :
    fetchOne mk s = .ended (raiseProgramTruncated (advanceIp s)) := by
  unfold fetchOne
  rw [fetchNext_at_end h]

theorem fetchTwo_of_ahead {s : State} {a b : Word} {rest : List Word} (mk : Word → Word → Instr)
    (hlow : -1 ≤ s.ip) (h : s.ahead = a :: b :: rest) :
    fetchTwo mk s = .instr (mk a b) (advanceIp (advanceIp s)) := by
  unfold fetchTwo
  rw [fetchNext_of_ahead hlow h]
  exact fetchOne_of_ahead _ (by simp only [advanceIp_ip]; omega) (ahead_advance hlow h)

theorem fetchTwo_at_second {s : State} {a : Word} (mk : Word → Word → Instr) (hlow : -1 ≤ s.ip)
    (h : s.ahead = [a]) :
    fetchTwo mk s = .ended (raiseProgramTruncated (advanceIp (advanceIp s))) := by
  unfold fetchTwo
  rw [fetchNext_of_ahead hlow h]
  refine fetchOne_at_end _ ?_
  have hlow' : -1 ≤ (advanceIp s).ip := by simp only [advanceIp_ip]; omega
  have : ¬ (advanceIp s).ip + 1 < progLen (advanceIp s) := by
    rw [← ahead_ne_nil_iff hlow', ahead_advance hlow h]; simp
  omega

theorem fetchTwo_at_end {s : State} (mk : Word → Word → Instr) (h : progLen s ≤ s.ip + 1) :
    fetchTwo mk s = .ended (raiseProgramTruncated (advanceIp s)) := by
  unfold fetchTwo
  rw [fetchNext_at_end h]

/-! ### The run cycle (R72 to R75) -/

theorem runCycle_at_end {s : State} (h : progLen s ≤ s.ip + 1) : runCycle s = .ended (exhaust s) := by
  unfold runCycle
  rw [if_pos h]

theorem runCycle_of_ahead {s : State} {w : Word} {rest : List Word} (hlow : -1 ≤ s.ip)
    (h : s.ahead = w :: rest) :
    runCycle s = fetchOperands (decodeOp s.cfg.opc w) (advanceIp s) := by
  have : s.ip + 1 < progLen s := (ahead_ne_nil_iff hlow).1 (by simp [h])
  unfold runCycle
  rw [if_neg (by omega), fetchNext_of_ahead hlow h]
  rfl

/-! ### The meanings -/

theorem exec_load (r : RegKey) (v : Word) (s : State) :
    exec (.load r v) s = .next (writeReg r (sext64 v) s) := rfl

theorem exec_add (d r : RegKey) (s : State) : exec (.add d r) s = .next (aluWrite .add d r s) := rfl

theorem exec_subtract (d r : RegKey) (s : State) :
    exec (.subtract d r) s = .next (aluWrite .subtract d r s) := rfl

theorem exec_print (r : RegKey) (s : State) :
    exec (.print r) s = .next (emit (.value (readReg s r)) s) := rfl

theorem exec_halt (s : State) : exec .halt s = .next (enterHalted (emit .haltNotice s)) := rfl

/-- What the ALU datapath writes, and where (R90). -/
theorem readReg_aluWrite (op : AluOp) (d r : RegKey) (s : State) (k : RegKey) :
    readReg (aluWrite op d r s) k =
      if k = d then alu op (readReg s d) (readReg s r) else readReg s k :=
  readReg_writeReg s d _ k

/-- What an unknown opcode word can do (R103, R104). -/
theorem execUnknown_cases {w : Word} {s t : State} (h : execUnknown w s = .next t) :
    (s.cfg.policy = .ignore ∧ t = s) ∨ (s.cfg.policy = .fault ∧ t = raiseUnknownOpcode w s) := by
  unfold execUnknown at h
  split at h
  · next hp => exact .inl ⟨hp, by injection h with h; exact h.symm⟩
  · next hp => exact .inr ⟨hp, by injection h with h; exact h.symm⟩

end Sys2Proof.Machine
end

