-- ==== Sys2Proof/Laws/PerInstr.lean ====
section
/-! SUPPORT. Statements made per instruction of the set, one lemma per constructor. -/

namespace Sys2Proof.Laws.EncodedLength

/-- An instruction's encoding has the length that R56 gives it, is 1 to 3 words long (R64), and is one word longer than
the operands that its opcode word alone announces (R53). -/
def Statement (i : Instr) : Prop :=
  ∀ o : Opc, o.wf → (encode o i).length = i.length ∧ 1 ≤ i.length ∧ i.length ≤ 3 ∧
    ∃ w operands, encode o i = w :: operands ∧ operands.length = operandCount (decodeOp o w)

theorem load (reg : RegKey) (value : Word) : Statement (.load reg value) := by
  intro o _
  exact ⟨rfl, by simp [Instr.length], by simp [Instr.length], o.load, _, rfl, by rw [decodeOp_load]; rfl⟩

theorem add (dst src : RegKey) : Statement (.add dst src) := by
  intro o h
  exact ⟨rfl, by simp [Instr.length], by simp [Instr.length], o.add, _, rfl, by rw [decodeOp_add h]; rfl⟩

theorem subtract (dst src : RegKey) : Statement (.subtract dst src) := by
  intro o h
  exact ⟨rfl, by simp [Instr.length], by simp [Instr.length], o.subtract, _, rfl, by rw [decodeOp_subtract h]; rfl⟩

theorem print (reg : RegKey) : Statement (.print reg) := by
  intro o h
  exact ⟨rfl, by simp [Instr.length], by simp [Instr.length], o.print, _, rfl, by rw [decodeOp_print h]; rfl⟩

theorem halt : Statement .halt := by
  intro o h
  exact ⟨rfl, by simp [Instr.length], by simp [Instr.length], o.halt, _, rfl, by rw [decodeOp_halt h]; rfl⟩

end Sys2Proof.Laws.EncodedLength
end

