-- ==== Sys2Proof/Laws/Run.lean ====
section
/-! SUPPORT. The run loop one step at a time, and the next word as a read of the program. -/

namespace Sys2Proof.Machine

/-- A terminal state is where a run stays (R71). -/
theorem runLoop_terminal {s : State} (h : s.terminal) (k : Nat) : runLoop k s = .next s := by
  cases k with
  | zero => rfl
  | succ k =>
    rw [runLoop]
    cases hr : s.runState <;> first | rfl | exact absurd hr h

/-- A run in Running takes a step first (R70). -/
theorem runLoop_running {s t : State} (hr : s.runState = .running) (h : step s = .next t) (k : Nat) :
    runLoop (k + 1) s = runLoop k t := by
  rw [runLoop]
  simp only [hr, h]

/-- The word at the next fetch index is the first of the words ahead (R24). -/
theorem memRead_next {s : State} (hlow : -1 ≤ s.ip) : memRead s (s.ip + 1) = s.ahead.head? := by
  unfold memRead State.ahead
  rw [if_neg (by omega), List.head?_drop]

/-- How many words are ahead (R10, R24). -/
theorem ahead_length {s : State} (hlow : -1 ≤ s.ip) :
    s.ahead.length = (progLen s - (s.ip + 1)).toNat := by
  unfold State.ahead progLen
  rw [List.length_drop]
  omega

end Sys2Proof.Machine
end

