-- ==== Sys2Proof/Laws/Ports.lean ====
section
/-! SUPPORT. The program port fetch by fetch, the fetches of a step phase by phase, and the signals of a run step by
step. -/

namespace Sys2Proof.Machine

@[simp] theorem portFetch_addr (s : State) : (portFetch s).addr = s.ip + 1 := rfl

@[simp] theorem portFetch_data (s : State) : (portFetch s).data = memRead s (s.ip + 1) := rfl

@[simp] theorem progAddr_eq (s : State) : progAddr s = s.ip + 1 := rfl

/-- The port's data is valid exactly below `prog_len` (R140). -/
theorem portFetch_isSome_iff {s : State} (hlow : -1 ≤ s.ip) :
    (portFetch s).data.isSome ↔ s.ip + 1 < progLen s := by
  rw [portFetch_data, memRead_next hlow, ← ahead_ne_nil_iff hlow]
  cases s.ahead <;> simp

/-- What `FetchNext()` answers is what the port shows (R73, R140). -/
theorem fetchNext_portFetch {s : State} (hlow : -1 ≤ s.ip) :
    fetchNext s = match (portFetch s).data with
      | some w => .word w (advanceIp s)
      | none   => .trapped (raiseProgramTruncated (advanceIp s)) := by
  cases ha : s.ahead with
  | nil =>
    have hend : progLen s ≤ s.ip + 1 := by
      have := (ahead_ne_nil_iff hlow).not.1 (by simp [ha])
      omega
    rw [portFetch_data, memRead_next hlow, ha, fetchNext_at_end hend]
    rfl
  | cons w rest =>
    rw [portFetch_data, memRead_next hlow, ha, fetchNext_of_ahead hlow ha]
    rfl

/-- One phase of the fetches of a step (R77). -/
theorem fetchesToBoundary_succ (fuel : Nat) (b : Block) :
    fetchesToBoundary (fuel + 1) b = (phaseFetch b).toList ++
      match phaseStep b with
      | .next b'   => if atBoundary b' then [] else fetchesToBoundary fuel b'
      | .fault _   => []
      | .refused _ => [] := rfl

/-- One step of the signals of a run (R70). -/
theorem portTrace_next {s t : State} (h : step s = .next t) (fuel : Nat) :
    portTrace (fuel + 1) s = ports s t :: portTrace fuel t := by
  rw [portTrace, h]

/-- A terminal state shows no step (R71). -/
theorem portTrace_terminal {s : State} (h : s.terminal) (fuel : Nat) : portTrace fuel s = [] := by
  cases fuel with
  | zero => rfl
  | succ fuel =>
    rw [portTrace]
    cases hr : s.runState <;> first | exact absurd hr h | simp [step, beginStep, hr]

end Sys2Proof.Machine
end

