-- ==== Sys2Proof/Tests/Slice0.lean ====
section
/-! SUPPORT. The implementer's own tests: the WellFormed smoke, each constructor's decoding from words written out from
the spec, single steps with the results that 95_test_vectors.md gives, and a witness for every statement with hypotheses. -/

namespace Sys2Proof.Tests

open Sys2Proof.Machine

/-- A Running state with a program, an IP, a register file and a policy, all else fresh. -/
def start (ip : Int) (program : List Word) (x : RegFile := []) (policy : UnknownOpcodePolicy := .ignore) : State :=
  { State.fresh { LaunchConfig.ref with policy := policy } with
    ip := ip, program := program, x := x, written := x.map (fun e => e.1) }

/-- The next state of an outcome. -/
def nextOf (o : Host.Outcome State Fault Refusal) : Option State :=
  match o with
  | .next s => some s
  | _       => none

/-! ### WellFormed: each check refuses an ill-formed term -/

theorem test_wf_reference_binding : Opc.ref.wf ∧ LaunchConfig.ref.wf := by decide

theorem test_wf_refuses_equal_opcodes : ¬ ({ Opc.ref with halt := 3 } : Opc).wf := by decide

theorem test_wf_refuses_debug : ¬ ({ LaunchConfig.ref with debug := true } : LaunchConfig).wf := by decide

theorem test_wf_refuses_wide_load_value : (AsmItem.load (.symbol .eax) 2147483648).wf = false := by decide

theorem test_wf_refuses_wide_registers :
    [AsmItem.load (.number 4294967295) 0, .add (.number 2147483648) (.symbol .eax),
      .subtract (.symbol .eax) (.number (-2147483649)), .print (.number 2147483648)].map AsmItem.wf =
        [false, false, false, false] := by decide

/-! ### Decoding: words written out from R55, R58, R59, R61 and R69 -/

/-- R69: `Load EAX 1` is `[0, 0, 1]`. -/
theorem test_decode_load : decode Opc.ref [0x00000000, 0x00000000, 0x00000001] = .ok (.load 0 1, []) := rfl

/-- R69: `Add EAX EBX` is `[1, 0, 1]`; the destination word comes first (R57). -/
theorem test_decode_add : decode Opc.ref [0x00000001, 0x00000000, 0x00000001] = .ok (.add 0 1, []) := rfl

/-- R89: `Subtract ECX EDX` is `[2, 2, 3]`. -/
theorem test_decode_subtract : decode Opc.ref [0x00000002, 0x00000002, 0x00000003] = .ok (.subtract 2 3, []) := rfl

/-- R58: the word -1 names key 4294967295. -/
theorem test_decode_print : decode Opc.ref [0x00000003, 0xFFFFFFFF] = .ok (.print 4294967295, []) := rfl

/-- R69: `Halt` is `[4]`; the word after it is not taken. -/
theorem test_decode_halt : decode Opc.ref [0x00000004, 0x00000003] = .ok (.halt, [0x00000003]) := rfl

/-- R63: 99 is no opcode value of the reference binding. -/
theorem test_decode_unknown : decode Opc.ref [0x00000063] = .error (.unknownOpcode 0x00000063) := rfl

/-- The opcode table's numbering: the second word is bits 63 to 32, the third bits 95 to 64. -/
theorem test_decode_table_word :
    decodeTableWord 96 0x00000005_00000007_00000000 = some (.load 7 5) ∧
    decodeTableWord 32 0x00000005_00000007_00000003 = some (.print 0) ∧ decodeTableWord 32 5 = none := by decide

/-- A placed instruction is what the next step runs, from reset. -/
theorem test_placed_word_runs :
    step (State.reset.withFetchWord 32 3) = exec (.print 0) { State.reset.withFetchWord 32 3 with ip := 1 } := rfl

/-- R69 and W6: the words of an assembler item. -/
theorem test_assembler :
    asmProgram Opc.ref [.subtract (.symbol .ecx) (.symbol .edx), .print (.number (-1)), .halt] =
      some [2, 2, 3, 3, 0xFFFFFFFF, 4] := by decide

/-! ### Single steps: vectors of 95_test_vectors.md -/

/-- L2 and R85's corner: `Load EAX -1` writes 0xFFFFFFFFFFFFFFFF and leaves `ip = 2`. -/
theorem test_load_sign_extends :
    (nextOf (step (start (-1) [0, 0, 0xFFFFFFFF]))).map (fun t => (readReg t 0, t.ip)) =
      some (0xFFFFFFFFFFFFFFFF#64, 2) := by decide

/-- L5: the register word -1 is key 4294967295, not register 0. -/
theorem test_load_key :
    (nextOf (step (start (-1) [0, 0xFFFFFFFF, 7]))).map (fun t => (readReg t 0xFFFFFFFF, readReg t 0, t.written)) =
      some (7, 0, [0xFFFFFFFF]) := by decide

/-- A3: INT64_MAX + 1 wraps to INT64_MIN. -/
theorem test_add_wraps :
    (nextOf (step (start (-1) [1, 0, 1] [(0, 0x7FFFFFFFFFFFFFFF), (1, 1)]))).map (fun t => t.x) =
      some [(0, 0x8000000000000000), (1, 1)] := by decide

/-- A8: adding two unset registers writes 0 and assigns only the destination. -/
theorem test_add_unset :
    (nextOf (step (start (-1) [1, 8, 9]))).map (fun t => (t.x, t.written)) = some ([], [8]) := by decide

/-- S7: the order is destination less source. -/
theorem test_subtract_order :
    (nextOf (step (start (-1) [2, 0, 1] [(0, 10), (1, 3)]))).map (fun t => t.x) = some [(0, 7), (1, 3)] := by decide

/-- S3: 0 - INT64_MIN wraps to INT64_MIN. -/
theorem test_subtract_wraps :
    (nextOf (step (start (-1) [2, 0, 1] [(1, 0x8000000000000000)]))).map (fun t => readReg t 0) =
      some 0x8000000000000000 := by decide

/-- P4: INT64_MIN on standard output. -/
theorem test_print_text :
    (nextOf (step (start (-1) [3, 0] [(0, 0x8000000000000000)]))).map (fun t => renderOut t.out) =
      some "-9223372036854775808\n".toList := by decide

/-- P2 and W4: a register never written prints 0, and is not assigned by that. -/
theorem test_print_unset :
    (nextOf (step (start (-1) [3, 7]))).map (fun t => (renderOut t.out, t.written)) =
      some ("0\n".toList, []) := by decide

/-- H1: Halt's line, state and IP; nothing is logged. -/
theorem test_halt :
    (nextOf (step (start (-1) [4]))).map (fun t => (renderOut t.out, t.runState, t.ip)) =
      some ("halting, please wait\n".toList, .halted, 0) := by decide

/-- F10: no step is enabled after it. -/
theorem test_halt_is_terminal :
    ((nextOf (step (start (-1) [4]))).bind (fun t => nextOf (step t))).isNone = true := by decide

/-- U2: an unknown opcode under policy Fault. -/
theorem test_unknown_fault :
    (nextOf (step (start (-1) [99] [] .fault))).map (fun t => (t.fault, t.ip)) =
      some (some { cause := .unknownOpcode, fip := 0, fword := 99 }, 0) := by decide

/-- F4: Add with no source word: ProgramTruncated, IP at N, no register written. -/
theorem test_truncated :
    (nextOf (step (start (-1) [1, 0]))).map (fun t => (t.fault, t.ip, t.written)) =
      some (some { cause := .programTruncated, fip := 2, fword := 0 }, 2, []) := by decide

/-- F1: an empty program is exhausted at once. -/
theorem test_exhausted :
    (nextOf (step State.reset)).map (fun t => (t.runState, t.logs, t.ip)) =
      some (.exhausted, [.exhausted], -1) := by decide

/-- R140: the output port and the next fetch index after a Print. -/
theorem test_ports :
    (nextOf (step (start (-1) [3, 0] [(0, 2)]))).map (fun t => ((ports (start (-1) [3, 0] [(0, 2)]) t).outEvent,
      (ports (start (-1) [3, 0] [(0, 2)]) t).progAddr)) = some (some (.value 2), 2) := by decide

/-- R29, D14: code 1 is ProgramTruncated and code 2 UnknownOpcode. -/
theorem test_cause_codes : causeCode .programTruncated = 1 ∧ causeCode .unknownOpcode = 2 := by decide

/-- F4 at the program port: the opcode, the destination word, and the fetch at N that has no word. -/
theorem test_port_fetches :
    (stepFetches (start (-1) [1, 0])).map (fun f => (f.addr, f.data)) =
      [(0, some 1), (1, some 0), (2, none)] := by decide

/-- R128, R140: `start` raised on an empty program shows the one step that logs Exhausted. -/
theorem test_start : (runPorts true State.reset).steps.map (fun p => (p.logValid, p.runState)) =
    [(true, .exhausted)] := by decide

/-- The bytes of a word, first byte first, in each order (log entry 26). -/
theorem test_image_bytes :
    imageOfWords .little [0x0A0B0C0D] = [0x0D, 0x0C, 0x0B, 0x0A] ∧
    imageOfWords .big [0x0A0B0C0D] = [0x0A, 0x0B, 0x0C, 0x0D] := by decide

/-! ### Witnesses: for each statement with hypotheses, a state and operands that meet them together -/

theorem start_enabled (ip : Int) (ws : List Word) (x : RegFile) (p : UnknownOpcodePolicy) (h : -1 ≤ ip) :
    (start ip ws x p).Enabled := ⟨rfl, rfl, h⟩

theorem ref_wf : Opc.ref.wf := by decide

/-- DecodeInvertsEncode, FreshStateHasInvariant. -/
theorem witness_reference_config : LaunchConfig.ref.wf ∧ LaunchConfig.ref.opc.wf := by decide

/-- EncodeInvertsDecode. -/
theorem witness_decodes : decode Opc.ref [1, 0, 1, 4] = .ok (.add 0 1, [4]) := rfl

/-- OpcodeSelectedByWholeWord: the last opcode value and the word after it. -/
theorem witness_opcode_values : Opc.ref.wf ∧ (4 : Word) ∈ Opc.ref.values ∧ (5 : Word) ∉ Opc.ref.values := by decide

/-- DecodeRefusesByName: each error is answered by some words. -/
theorem witness_decode_errors :
    decode Opc.ref [] = .error .noWord ∧ decode Opc.ref [5] = .error (.unknownOpcode 5) ∧
    decode Opc.ref [3] = .error .truncated := ⟨rfl, rfl, rfl⟩

/-- AssemblerItemWords: both ends of the range. -/
theorem witness_word_range :
    inWordRange (-2147483648) ∧ inWordRange 2147483647 ∧ (AsmItem.load (.symbol .edx) (-2147483648)).wf = true := by
  decide

/-- ResetValues. -/
theorem witness_fresh : State.reset = State.fresh LaunchConfig.ref := rfl

/-- DebugIsRefused. -/
theorem witness_debug :
    ({ LaunchConfig.ref with debug := true } : LaunchConfig).debug = true ∧ LaunchConfig.ref.debug = false ∧
    (State.fresh { LaunchConfig.ref with debug := true }).cfg.debug = true ∧
    (State.fresh { LaunchConfig.ref with debug := true }).runState = .running := by decide

/-- LoadReplacesTheProgramOnly. -/
theorem witness_load_allowed : State.reset.ip = -1 ∧ State.reset.runState = .running := by decide

/-- LoadRefusedAfterAStep, StepKeepsLaunchParameters, OneOutputEventPerStep and PortsShowTheStep, for a step that stays
Running, one that halts and one that exhausts. -/
theorem witness_steps :
    step (start (-1) [3, 0]) = .next (emit (.value 0) (start 1 [3, 0])) ∧
    step (start (-1) [4]) = .next (enterHalted (emit .haltNotice (start 0 [4]))) ∧
    step State.reset = .next (exhaust State.reset) := ⟨rfl, rfl, rfl⟩

/-- RunReturnsTerminal: a terminal state, an enabled one, and a run that returns. -/
theorem witness_run :
    (exhaust State.reset).terminal ∧ State.reset.Enabled ∧ hostRun State.reset = .next (exhaust State.reset) :=
  ⟨by simp [State.terminal], start_enabled (-1) [] [] .ignore (by decide), rfl⟩

/-- PlacedWordsComeNext: the lowest IP, and an index before the fetch. -/
theorem witness_placed :
    -1 ≤ State.reset.ip ∧ ((0 : Nat) : Int) ≤ (start 0 [7]).ip ∧ ((0 : Nat) : Int) < progLen (start 0 [7]) := by
  decide

/-- StepRunsDecodedInstruction, for each constructor. -/
theorem witness_step_decodes :
    (start (-1) [0, 0, 1]).Enabled ∧
    decode Opc.ref (start (-1) [0, 0, 1]).ahead = .ok (.load 0 1, []) ∧
    decode Opc.ref (start (-1) [1, 0, 1]).ahead = .ok (.add 0 1, []) ∧
    decode Opc.ref (start (-1) [2, 0, 1]).ahead = .ok (.subtract 0 1, []) ∧
    decode Opc.ref (start (-1) [3, 0]).ahead = .ok (.print 0, []) ∧
    decode Opc.ref (start 0 [99, 4]).ahead = .ok (.halt, []) :=
  ⟨start_enabled _ _ _ _ (by decide), rfl, rfl, rfl, rfl, rfl⟩

/-- StepEnabledExactlyInRunning: a Running state and each terminal one, at the lowest IP. -/
theorem witness_run_states :
    State.reset.cfg.debug = false ∧ -1 ≤ State.reset.ip ∧ State.reset.runState = .running ∧
    (enterHalted State.reset).runState ≠ .running ∧ (exhaust State.reset).runState ≠ .running ∧
    (raiseProgramTruncated State.reset).runState ≠ .running := by decide

/-- StepExhaustsAtTheEnd: an empty program, and a program whose last word is consumed. -/
theorem witness_exhausted :
    State.reset.Enabled ∧ progLen State.reset ≤ State.reset.ip + 1 ∧
    (start 1 [3, 0]).Enabled ∧ progLen (start 1 [3, 0]) ≤ (start 1 [3, 0]).ip + 1 :=
  ⟨start_enabled (-1) [] [] .ignore (by decide), by decide, start_enabled _ _ _ _ (by decide), by decide⟩

/-- TruncatedInstructionFaults: one and two operand words missing, and a missing last one. -/
theorem witness_truncated :
    (start (-1) [3]).Enabled ∧ decode Opc.ref (start (-1) [3]).ahead = .error .truncated ∧
    decode Opc.ref (start (-1) [0]).ahead = .error .truncated ∧
    decode Opc.ref (start (-1) [2, 0]).ahead = .error .truncated :=
  ⟨start_enabled _ _ _ _ (by decide), rfl, rfl, rfl⟩

/-- UnknownOpcodeIgnored: as the last word, and with words after it. -/
theorem witness_unknown_ignored :
    (start (-1) [99]).Enabled ∧ (start (-1) [99]).cfg.policy = .ignore ∧ (start (-1) [99]).ahead = [99] ∧
    (start (-1) [99, 3, 0, 4]).ahead = 99 :: [3, 0, 4] ∧ (99 : Word) ∉ Opc.ref.values :=
  ⟨start_enabled _ _ _ _ (by decide), rfl, rfl, rfl, by decide⟩

/-- UnknownOpcodeFaults. -/
theorem witness_unknown_faults :
    (start (-1) [99] [] .fault).Enabled ∧ (start (-1) [99] [] .fault).cfg.policy = .fault ∧
    (start (-1) [99] [] .fault).ahead = [99] ∧ (99 : Word) ∉ Opc.ref.values :=
  ⟨start_enabled _ _ _ _ (by decide), rfl, rfl, by decide⟩

/-- IpChangesByFetchOnly, clause by clause. -/
theorem witness_ip :
    fetchNext (start (-1) [4]) = .word 4 (start 0 [4]) ∧
    fetchNext State.reset = .trapped (raiseProgramTruncated (advanceIp State.reset)) ∧
    exec .halt State.reset = .next (enterHalted (emit .haltNotice State.reset)) ∧
    execUnknown 99 State.reset = .next State.reset ∧
    step (start (-1) [99]) = .next (start 0 [99]) ∧ (start 0 [99]).runState = .running :=
  ⟨rfl, rfl, rfl, rfl, rfl, rfl⟩

/-- FaultsArePrecise, and PortsShowTheStep with a record of each cause. -/
theorem witness_faulted :
    step (start (-1) [3]) = .next (raiseProgramTruncated (start 1 [3])) ∧
    (raiseProgramTruncated (start 1 [3])).runState = .faulted ∧
    step (start (-1) [99] [] .fault) = .next (raiseUnknownOpcode 99 (start 0 [99] [] .fault)) ∧
    (raiseUnknownOpcode 99 (start 0 [99] [] .fault)).runState = .faulted := ⟨rfl, rfl, rfl, rfl⟩

/-- FaultPortsShowTheCause: each exception, and what the ports then show. -/
theorem witness_fault_ports :
    (start (-1) [3]).Enabled ∧ decode Opc.ref (start (-1) [3]).ahead = .error .truncated ∧
    (start (-1) [99] [] .fault).Enabled ∧ (start (-1) [99] [] .fault).cfg.policy = .fault ∧
    decode Opc.ref (start (-1) [99] [] .fault).ahead = .error (.unknownOpcode 99) ∧
    (ports (start (-1) [3]) (raiseProgramTruncated (start 1 [3]))).faultCause = 1 ∧
    (ports (start (-1) [99] [] .fault) (raiseUnknownOpcode 99 (start 0 [99] [] .fault))).faultCause = 2 :=
  ⟨start_enabled _ _ _ _ (by decide), rfl, start_enabled _ _ _ _ (by decide), rfl, rfl, rfl, rfl⟩

/-- FetchPhaseTakesThePortWord: an opcode fetch at the lowest IP, and an operand fetch whose word is missing. -/
theorem witness_fetch_phase :
    -1 ≤ (start (-1) [4]).ip ∧
    phaseFetch { phase := .fetchOp, core := start (-1) [4] } = some { addr := 0, data := some 4 } ∧
    phaseFetch { phase := .fetchOperand .print 0 0, core := start 0 [3] } = some { addr := 1, data := none } :=
  ⟨by decide, rfl, rfl⟩

/-- ProgramPortShowsEveryFetch: a whole instruction with words after it, and an exhaustion, which fetches nothing. -/
theorem witness_port_fetches :
    step (start (-1) [3, 0, 4]) = .next (emit (.value 0) (start 1 [3, 0, 4])) ∧
    decode Opc.ref (start (-1) [3, 0, 4]).ahead = .ok (.print 0, [4]) ∧
    (stepFetches (start (-1) [3, 0, 4])).map (fun f => f.addr) = [0, 1] ∧
    step State.reset = .next (exhaust State.reset) ∧ stepFetches State.reset = [] := ⟨rfl, rfl, rfl, rfl, rfl⟩

/-- StartRunsTheCore: a terminal state and an enabled one. -/
theorem witness_start : (exhaust State.reset).terminal ∧ State.reset.Enabled ∧
    onStart true State.reset = .next (exhaust State.reset) :=
  ⟨by simp [State.terminal], start_enabled (-1) [] [] .ignore (by decide), rfl⟩

/-- ByteImageHoldsTheProgram: an image of one word, and the first and last bytes of a second word. -/
theorem witness_image :
    wordsOfImage .big [0, 0, 0, 4] = some [4] ∧ [3, (4 : Word)][1]? = some 4 ∧ 0 < 4 ∧ 3 < 4 := by decide

/-- PhasesRefineStep. -/
theorem witness_phases : State.reset.runState = .running ∧ State.reset.cfg.debug = false := by decide

/-- PhasesCarryTheIp: a phase that another follows, and EXECUTE. -/
theorem witness_phase_ip :
    ipOnEntry 0 .check = some (start (-1) [4]).ip ∧
    phaseStep { phase := .check, core := start (-1) [4] } = .next { phase := .fetchOp, core := start (-1) [4] } ∧
    atBoundary { phase := .fetchOp, core := start (-1) [4] } = false ∧
    ipOnEntry 0 (.execute .halt 0 0) = some (start 0 [4]).ip ∧
    phaseStep { phase := .execute .halt 0 0, core := start 0 [4] } =
      .next (atEnd (enterHalted (emit .haltNotice (start 0 [4])))) := ⟨rfl, rfl, rfl, rfl, rfl⟩

/-- RegisterWriteReplacesOne: another key, and a step that changes a register. -/
theorem witness_register_changes :
    (1 : RegKey) ≠ 0 ∧
    step (start (-1) [0, 0, 1]) = .next (writeReg 0 (sext64 1) (start 2 [0, 0, 1])) ∧
    readReg (writeReg 0 (sext64 1) (start 2 [0, 0, 1])) 0 ≠ readReg (start (-1) [0, 0, 1]) 0 :=
  ⟨by decide, rfl, by decide⟩

/-- RegisterFileIsCanonical: a register file with entries, in canonical form. -/
theorem witness_canonical : RegFile.wf [(0, 1), (4294967295, 2)] := by decide

/-- AluWrapsTheExactResult: both ends of the range, each the result of an Add and of a Subtract. -/
theorem witness_alu_range :
    (-2 ^ 63 : Int) ≤ -2 ^ 63 ∧ (-2 ^ 63 : Int) < 2 ^ 63 ∧ (-2 ^ 63 : Int) ≤ 2 ^ 63 - 1 ∧ (2 ^ 63 - 1 : Int) < 2 ^ 63 ∧
    (alu .add 0x7FFFFFFFFFFFFFFF 1).toInt = -9223372036854775808 ∧
    (alu .subtract 0x8000000000000000 1).toInt = 9223372036854775807 :=
  ⟨by norm_num, by norm_num, by norm_num, by norm_num, by decide, by decide⟩

/-- OperandWordsWiden: the bits where its clauses meet, of a negative word. -/
theorem witness_widened_bits :
    (sext64 0x80000000).getLsbD 31 = true ∧ (sext64 0x80000000).getLsbD 32 = true ∧
    (sext64 0x80000000).getLsbD 63 = true ∧ (sext64 0x7FFFFFFF).getLsbD 32 = false := by decide

/-- ExecLoadResult, ExecAddSubtractResult, ExecPrintResult, ExecHaltResult and SameRegisterOperands have no hypothesis;
LoadStep: whole, with one word missing and with two. -/
theorem witness_load_step :
    (start (-1) [0, 7, 5]).Enabled ∧ Opc.ref.wf ∧ (start (-1) [0, 7, 5]).ahead = Opc.ref.load :: 7 :: 5 :: [] ∧
    (start (-1) [0]).ahead = [Opc.ref.load] ∧ (start (-1) [0, 7]).ahead = [Opc.ref.load, 7] :=
  ⟨start_enabled _ _ _ _ (by decide), ref_wf, rfl, rfl, rfl⟩

/-- AddStep. -/
theorem witness_add_step :
    (start (-1) [1, 7, 5]).Enabled ∧ Opc.ref.wf ∧ (start (-1) [1, 7, 5]).ahead = Opc.ref.add :: 7 :: 5 :: [] ∧
    (start (-1) [1]).ahead = [Opc.ref.add] ∧ (start (-1) [1, 7]).ahead = [Opc.ref.add, 7] :=
  ⟨start_enabled _ _ _ _ (by decide), ref_wf, rfl, rfl, rfl⟩

/-- SubtractStep. -/
theorem witness_subtract_step :
    (start (-1) [2, 7, 5]).Enabled ∧ Opc.ref.wf ∧ (start (-1) [2, 7, 5]).ahead = Opc.ref.subtract :: 7 :: 5 :: [] ∧
    (start (-1) [2]).ahead = [Opc.ref.subtract] ∧ (start (-1) [2, 7]).ahead = [Opc.ref.subtract, 7] :=
  ⟨start_enabled _ _ _ _ (by decide), ref_wf, rfl, rfl, rfl⟩

/-- PrintStep. -/
theorem witness_print_step :
    (start (-1) [3, 7]).Enabled ∧ Opc.ref.wf ∧ (start (-1) [3, 7]).ahead = Opc.ref.print :: 7 :: [] ∧
    (start (-1) [3]).ahead = [Opc.ref.print] := ⟨start_enabled _ _ _ _ (by decide), ref_wf, rfl, rfl⟩

/-- HaltStep: with words after it. -/
theorem witness_halt_step :
    (start (-1) [4, 3]).Enabled ∧ Opc.ref.wf ∧ (start (-1) [4, 3]).ahead = Opc.ref.halt :: [3] :=
  ⟨start_enabled _ _ _ _ (by decide), ref_wf, rfl⟩

/-- LoadedValuesAddUp: two registers, and one. -/
theorem witness_sums :
    ∃ s1 s2 s3 s4 t3 t4 u2 u3 u4 v3 v4,
      exec (.load 0 1) State.reset = .next s1 ∧ exec (.load 1 2) s1 = .next s2 ∧ exec (.add 0 1) s2 = .next s3 ∧
      exec (.print 0) s3 = .next s4 ∧ exec (.subtract 0 1) s2 = .next t3 ∧ exec (.print 0) t3 = .next t4 ∧
      exec (.load 0 2) s1 = .next u2 ∧ exec (.add 0 0) u2 = .next u3 ∧ exec (.print 0) u3 = .next u4 ∧
      exec (.subtract 0 0) u2 = .next v3 ∧ exec (.print 0) v3 = .next v4 :=
  ⟨_, _, _, _, _, _, _, _, _, _, _, rfl, rfl, rfl, rfl, rfl, rfl, rfl, rfl, rfl, rfl, rfl⟩

/-- A loaded Running state has the invariant. -/
theorem witness_invariant : (start (-1) [0, 0, 1]).Inv where
  cfgOk := by decide
  regsOk := by decide
  writtenOk := by decide
  regsKnown := by simp [start, State.fresh]
  ipLow := by decide
  ipHigh := by decide
  ipInside := by decide
  atTheEnd := by simp [start, State.fresh]
  faultOk := by simp [State.faultFits, start, State.fresh]
  logsOk := rfl
  outOk := by simp [State.outFits, start, State.fresh]

/-- LoadKeepsInvariant. -/
theorem witness_load_keeps : (start (-1) [0, 0, 1]).Inv ∧
    hostLoad [4] (start (-1) [0, 0, 1]) = .next (start (-1) [4]) := ⟨witness_invariant, rfl⟩

/-- StepKeepsInvariant, RunConsumesAWordPerStep, EveryRunTerminates. -/
theorem witness_invariant_step : (start (-1) [0, 0, 1]).Inv ∧
    step (start (-1) [0, 0, 1]) = .next (writeReg 0 (sext64 1) (start 2 [0, 0, 1])) ∧
    progLen (start (-1) [0, 0, 1]) - (start (-1) [0, 0, 1]).ip ≤ (4 : Nat) := ⟨witness_invariant, rfl, by decide⟩

end Sys2Proof.Tests
end

section
/-! The operand words (R15, R58, R86): the bits and the signed value of the widened immediate. -/

namespace Sys2Proof.Machine

/-- The model's widening is the library's sign extension, whose lemmas then speak of it. -/
theorem sext64_eq_signExtend (w : Word) : sext64 w = w.signExtend 64 :=
  (BitVec.signExtend_eq_append_of_le (x := w) (v := 64) (by decide)).symm

theorem sext64_toInt (w : Word) : (sext64 w).toInt = w.toInt := by
  rw [sext64_eq_signExtend, BitVec.toInt_signExtend_of_le (by decide)]

theorem sext64_getLsbD_low (w : Word) {i : Nat} (hi : i < 32) : (sext64 w).getLsbD i = w.getLsbD i := by
  have hi64 : i < 64 := by omega
  rw [sext64_eq_signExtend, BitVec.getLsbD_signExtend, decide_eq_true hi64, if_pos hi, Bool.true_and]

theorem sext64_getLsbD_high (w : Word) {i : Nat} (hlow : 32 ≤ i) (hhigh : i < 64) :
    (sext64 w).getLsbD i = w.getLsbD 31 := by
  rw [sext64_eq_signExtend, BitVec.getLsbD_signExtend, decide_eq_true hhigh, if_neg (by omega), Bool.true_and,
    BitVec.msb_eq_getLsbD_last]

/-- Settles O29: the widening is the library's sign extension, and a word and its key are one unsigned number. -/
theorem operandWordsWiden : Obligations.OperandWordsWiden := by
  intro w
  exact ⟨sext64_toInt w, fun _ hi => sext64_getLsbD_low w hi, fun _ hlow hhigh => sext64_getLsbD_high w hlow hhigh,
    u32_toNat w, regWord_u32 w⟩

end Sys2Proof.Machine
end

section
/-! What decoding the words of a program answers (R53 to R65): an equation per opcode and per refusal, and what an
answer says of the words. -/

namespace Sys2Proof

variable {o : Opc} {w : Word}

theorem decode_of_load (h : decodeOp o w = .load) (r v : Word) (rest : List Word) :
    decode o (w :: r :: v :: rest) = .ok (.load (u32 r) v, rest) := by simp [decode, h]

theorem decode_of_add (h : decodeOp o w = .add) (d r : Word) (rest : List Word) :
    decode o (w :: d :: r :: rest) = .ok (.add (u32 d) (u32 r), rest) := by simp [decode, h]

theorem decode_of_subtract (h : decodeOp o w = .subtract) (d r : Word) (rest : List Word) :
    decode o (w :: d :: r :: rest) = .ok (.subtract (u32 d) (u32 r), rest) := by simp [decode, h]

theorem decode_of_print (h : decodeOp o w = .print) (r : Word) (rest : List Word) :
    decode o (w :: r :: rest) = .ok (.print (u32 r), rest) := by simp [decode, h]

theorem decode_of_halt (h : decodeOp o w = .halt) (rest : List Word) :
    decode o (w :: rest) = .ok (.halt, rest) := by simp [decode, h]

theorem decode_of_unknown (h : decodeOp o w = .unknown w) (rest : List Word) :
    decode o (w :: rest) = .error (.unknownOpcode w) := by simp [decode, h]

theorem operandCount_le_two (d : DecodedOp) : operandCount d ≤ 2 := by
  cases d <;> simp [operandCount]

/-- A known opcode with an operand word missing (R56, R108). -/
theorem decode_of_short {rest : List Word} (h : rest.length < operandCount (decodeOp o w)) :
    decode o (w :: rest) = .error .truncated := by
  rcases rest with _ | ⟨a, _ | ⟨b, rest⟩⟩
  · cases hd : decodeOp o w <;> simp [decode, operandCount, hd] at h ⊢
  · cases hd : decodeOp o w <;> simp [decode, operandCount, hd] at h ⊢
  · have hcount := operandCount_le_two (decodeOp o w)
    simp only [List.length_cons] at h
    omega

/-- What can stand at the head of a program: a known opcode with an operand word missing, one of the five instructions
with its operand words, or a word that is no opcode (R53, R56, R63). -/
inductive HeadWords (o : Opc) : Word → List Word → Prop
  | short {w : Word} {rest : List Word} (h : rest.length < operandCount (decodeOp o w)) : HeadWords o w rest
  | load (r v : Word) (rest : List Word) (hd : decodeOp o o.load = .load) : HeadWords o o.load (r :: v :: rest)
  | add (d r : Word) (rest : List Word) (hd : decodeOp o o.add = .add) : HeadWords o o.add (d :: r :: rest)
  | subtract (d r : Word) (rest : List Word) (hd : decodeOp o o.subtract = .subtract) :
      HeadWords o o.subtract (d :: r :: rest)
  | print (r : Word) (rest : List Word) (hd : decodeOp o o.print = .print) : HeadWords o o.print (r :: rest)
  | halt (rest : List Word) (hd : decodeOp o o.halt = .halt) : HeadWords o o.halt rest
  | unknown {w : Word} (rest : List Word) (hd : decodeOp o w = .unknown w) (hw : w ∉ o.values) : HeadWords o w rest

theorem length_lt_two_or_cons_cons (ws : List Word) : ws.length < 2 ∨ ∃ a b rest, ws = a :: b :: rest := by
  rcases ws with _ | ⟨a, _ | ⟨b, rest⟩⟩ <;> simp

/-- Every program with a first word is one of these, whatever the binding. -/
theorem headWords (o : Opc) (w : Word) (rest : List Word) : HeadWords o w rest := by
  rcases decodeOp_cases o w with ⟨hd, rfl⟩ | ⟨hd, rfl⟩ | ⟨hd, rfl⟩ | ⟨hd, rfl⟩ | ⟨hd, rfl⟩ | ⟨hd, hw⟩
  · rcases length_lt_two_or_cons_cons rest with h | ⟨r, v, rest, rfl⟩
    · exact .short (by rwa [hd])
    · exact .load r v rest hd
  · rcases length_lt_two_or_cons_cons rest with h | ⟨d, r, rest, rfl⟩
    · exact .short (by rwa [hd])
    · exact .add d r rest hd
  · rcases length_lt_two_or_cons_cons rest with h | ⟨d, r, rest, rfl⟩
    · exact .short (by rwa [hd])
    · exact .subtract d r rest hd
  · rcases rest with _ | ⟨r, rest⟩
    · exact .short (by rw [hd]; exact Nat.one_pos)
    · exact .print r rest hd
  · exact .halt rest hd
  · exact .unknown rest hd hw

/-- What an answer of the decoder says of the words it read. -/
def decodeFits (o : Opc) (ws : List Word) : Except DecodeError (Instr × List Word) → Prop
  | .ok (i, rest)             => ws = encode o i ++ rest
  | .error .noWord            => ws = []
  | .error .truncated         => ws ≠ []
  | .error (.unknownOpcode w) => ws.head? = some w ∧ w ∉ o.values

/-- Decoding fits the words, whatever the binding and the words. -/
theorem decode_fits (o : Opc) (ws : List Word) : decodeFits o ws (decode o ws) := by
  rcases ws with _ | ⟨w, rest⟩
  · exact rfl
  cases headWords o w rest with
  | short h => simp [decode_of_short h, decodeFits]
  | load r v rest hd => simp [decode_of_load hd, decodeFits, encode]
  | add d r rest hd => simp [decode_of_add hd, decodeFits, encode]
  | subtract d r rest hd => simp [decode_of_subtract hd, decodeFits, encode]
  | print r rest hd => simp [decode_of_print hd, decodeFits, encode]
  | halt rest hd => simp [decode_of_halt hd, decodeFits, encode]
  | unknown rest hd hw => simp [decode_of_unknown hd, decodeFits, hw]

/-- What decodes to an instruction starts with the words that encode it (R53, R69). -/
theorem eq_encode_of_decode_ok {ws : List Word} {i : Instr} {rest : List Word} (h : decode o ws = .ok (i, rest)) :
    ws = encode o i ++ rest := by
  have hfits := decode_fits o ws
  rwa [h] at hfits

theorem eq_nil_of_decode_noWord {ws : List Word} (h : decode o ws = .error .noWord) : ws = [] := by
  have hfits := decode_fits o ws
  rwa [h] at hfits

theorem head_of_decode_unknown {ws : List Word} (h : decode o ws = .error (.unknownOpcode w)) :
    ws.head? = some w ∧ w ∉ o.values := by
  have hfits := decode_fits o ws
  rwa [h] at hfits

/-- An instruction's words are as many as its length says (R56). -/
theorem encode_length (o : Opc) (i : Instr) : (encode o i).length = i.length := by
  cases i <;> rfl

theorem Instr.length_pos (i : Instr) : 0 < i.length := by
  cases i <;> simp [Instr.length]

end Sys2Proof
end

section
/-! A step said through the decoder (R71 to R76): the IP moved to an index, what a step answers in each case, and
everything that a step can come to. -/

namespace Sys2Proof.Machine

/-! ### The state with the IP at an index (R24) -/

/-- The state with the IP at an index, all else as it is. -/
def State.atIp (s : State) (i : Int) : State := { s with ip := i }

section
variable (s : State) (i j : Int)

@[simp] theorem atIp_x : (s.atIp i).x = s.x := rfl
@[simp] theorem atIp_ip : (s.atIp i).ip = i := rfl
@[simp] theorem atIp_runState : (s.atIp i).runState = s.runState := rfl
@[simp] theorem atIp_fault : (s.atIp i).fault = s.fault := rfl
@[simp] theorem atIp_stack : (s.atIp i).stack = s.stack := rfl
@[simp] theorem atIp_sp : (s.atIp i).sp = s.sp := rfl
@[simp] theorem atIp_out : (s.atIp i).out = s.out := rfl
@[simp] theorem atIp_logs : (s.atIp i).logs = s.logs := rfl
@[simp] theorem atIp_written : (s.atIp i).written = s.written := rfl
@[simp] theorem atIp_program : (s.atIp i).program = s.program := rfl
@[simp] theorem atIp_cfg : (s.atIp i).cfg = s.cfg := rfl
@[simp] theorem atIp_progLen : progLen (s.atIp i) = progLen s := rfl
@[simp] theorem atIp_memRead : memRead (s.atIp i) j = memRead s j := rfl
@[simp] theorem atIp_readReg (k : RegKey) : readReg (s.atIp i) k = readReg s k := rfl
@[simp] theorem atIp_atIp : (s.atIp i).atIp j = s.atIp j := rfl
@[simp] theorem advanceIp_atIp : advanceIp (s.atIp i) = s.atIp (i + 1) := rfl

/-- The fetch primitive's increment (R25). -/
theorem advanceIp_eq_atIp : advanceIp s = s.atIp (s.ip + 1) := rfl

theorem advanceIp_twice : advanceIp (advanceIp s) = s.atIp (s.ip + 2) := by
  simp [advanceIp_eq_atIp, add_assoc]

theorem advanceIp_thrice : advanceIp (advanceIp (advanceIp s)) = s.atIp (s.ip + 3) := by
  simp [advanceIp_eq_atIp, add_assoc]

end

/-! ### The fetch and decode part of a step (R72 to R75) -/

/-- With no next word the IP is at the last word or beyond it. -/
theorem progLen_le_of_ahead_nil {s : State} (hlow : -1 ≤ s.ip) (h : s.ahead = []) : progLen s ≤ s.ip + 1 := by
  have := (ahead_ne_nil_iff hlow).not.1 (by simp [h])
  omega

/-- With a next word the IP is below the last word. -/
theorem lt_progLen_of_ahead {s : State} {w : Word} {rest : List Word} (hlow : -1 ≤ s.ip)
    (h : s.ahead = w :: rest) : s.ip + 1 < progLen s :=
  (ahead_ne_nil_iff hlow).1 (by simp [h])

theorem fetchOne_of_ahead_nil {s : State} (mk : Word → Instr) (hlow : -1 ≤ s.ip) (hin : s.ip < progLen s)
    (h : s.ahead = []) : fetchOne mk s = .ended (raiseProgramTruncated (s.atIp (progLen s))) := by
  have hend := progLen_le_of_ahead_nil hlow h
  rw [fetchOne_at_end mk hend, advanceIp_eq_atIp, show s.ip + 1 = progLen s by omega]

/-- Two operands with a word missing: the fetch that fails leaves the IP at `N` (R73, R108). -/
theorem fetchTwo_of_ahead_short {s : State} (mk : Word → Word → Instr) (hlow : -1 ≤ s.ip) (hin : s.ip < progLen s)
    (h : s.ahead.length < 2) : fetchTwo mk s = .ended (raiseProgramTruncated (s.atIp (progLen s))) := by
  rcases ha : s.ahead with _ | ⟨a, _ | ⟨b, rest⟩⟩
  · have hend := progLen_le_of_ahead_nil hlow ha
    rw [fetchTwo_at_end mk hend, advanceIp_eq_atIp, show s.ip + 1 = progLen s by omega]
  · unfold fetchTwo
    rw [fetchNext_of_ahead hlow ha]
    exact fetchOne_of_ahead_nil (mk a) (by rw [advanceIp_ip]; omega) (lt_progLen_of_ahead hlow ha)
      (ahead_advance hlow ha)
  · simp [ha] at h

theorem fetchOperands_of_short {s : State} {d : DecodedOp} (hlow : -1 ≤ s.ip) (hin : s.ip < progLen s)
    (h : s.ahead.length < operandCount d) :
    fetchOperands d s = .ended (raiseProgramTruncated (s.atIp (progLen s))) := by
  cases d with
  | load => exact fetchTwo_of_ahead_short _ hlow hin h
  | add => exact fetchTwo_of_ahead_short _ hlow hin h
  | subtract => exact fetchTwo_of_ahead_short _ hlow hin h
  | print => exact fetchOne_of_ahead_nil _ hlow hin (List.length_eq_zero_iff.1 (Nat.lt_one_iff.1 h))
  | halt => exact absurd h (Nat.not_lt_zero _)
  | unknown w => exact absurd h (Nat.not_lt_zero _)

/-- What the fetch and decode part of a step comes to, by what the words ahead decode to. -/
def begunOf (s : State) : Except DecodeError (Instr × List Word) → Begun
  | .ok (i, _)                => .instr i (s.atIp (s.ip + i.length))
  | .error .noWord            => .ended (exhaust s)
  | .error .truncated         => .ended (raiseProgramTruncated (s.atIp (progLen s)))
  | .error (.unknownOpcode w) => .unknown w (s.atIp (s.ip + 1))

/-- Fetching word by word agrees with decoding the words ahead as a list (R73 to R75). -/
theorem runCycle_eq_begunOf {s : State} (hlow : -1 ≤ s.ip) :
    runCycle s = begunOf s (decode s.cfg.opc s.ahead) := by
  cases ha : s.ahead with
  | nil => exact runCycle_at_end (progLen_le_of_ahead_nil hlow ha)
  | cons w rest =>
    have hlow' : -1 ≤ (advanceIp s).ip := by rw [advanceIp_ip]; omega
    have hin : (advanceIp s).ip < progLen (advanceIp s) := lt_progLen_of_ahead hlow ha
    have hrest := ahead_advance hlow ha
    rw [runCycle_of_ahead hlow ha]
    cases headWords s.cfg.opc w rest with
    | short h =>
      rw [decode_of_short h]
      exact fetchOperands_of_short hlow' hin (by rwa [hrest])
    | load r v rest hd =>
      rw [decode_of_load hd, hd, fetchOperands, fetchTwo_of_ahead _ hlow' hrest, advanceIp_thrice]
      rfl
    | add d r rest hd =>
      rw [decode_of_add hd, hd, fetchOperands, fetchTwo_of_ahead _ hlow' hrest, advanceIp_thrice]
      rfl
    | subtract d r rest hd =>
      rw [decode_of_subtract hd, hd, fetchOperands, fetchTwo_of_ahead _ hlow' hrest, advanceIp_thrice]
      rfl
    | print r rest hd =>
      rw [decode_of_print hd, hd, fetchOperands, fetchOne_of_ahead _ hlow' hrest, advanceIp_twice]
      rfl
    | halt rest hd =>
      rw [decode_of_halt hd, hd]
      rfl
    | unknown rest hd hw =>
      rw [decode_of_unknown hd, hd]
      rfl

end Sys2Proof.Machine
end

section
/-! What a step answers in each case, and everything that a step can come to (R71 to R76): the inversion lemma that the
statements about all steps are derived from. -/

namespace Sys2Proof.Machine

variable {s t : State} {i : Instr} {w : Word} {rest : List Word} {k : RegKey} {v : Value}

/-! ### The words ahead, by what they decode to -/

/-- All words of a decoded instruction are in the program (R53). -/
theorem ip_lt_of_decode_ok (hlow : -1 ≤ s.ip) (hd : decode s.cfg.opc s.ahead = .ok (i, rest)) :
    s.ip + i.length < progLen s := by
  have hlen := ahead_length hlow
  have hpos := i.length_pos
  rw [eq_encode_of_decode_ok hd, List.length_append, encode_length] at hlen
  omega

/-- The word of a decoded Halt is the next one (R102). -/
theorem memRead_of_decode_halt (hlow : -1 ≤ s.ip) (hd : decode s.cfg.opc s.ahead = .ok (.halt, rest)) :
    memRead s (s.ip + 1) = some s.cfg.opc.halt := by
  rw [memRead_next hlow, eq_encode_of_decode_ok hd]
  rfl

/-- An unknown opcode word is the next one and none of the five (R63). -/
theorem memRead_of_decode_unknown (hlow : -1 ≤ s.ip) (hd : decode s.cfg.opc s.ahead = .error (.unknownOpcode w)) :
    memRead s (s.ip + 1) = some w ∧ w ∉ s.cfg.opc.values := by
  rw [memRead_next hlow]
  exact head_of_decode_unknown hd

theorem decode_noWord_iff : decode s.cfg.opc s.ahead = .error .noWord ↔ s.ahead = [] :=
  ⟨eq_nil_of_decode_noWord, fun ha => by rw [ha]; rfl⟩

/-- Where the decoder finds a word at all, the fetch of it stays in the program (R72). -/
theorem ip_lt_of_ahead (hlow : -1 ≤ s.ip) (h : decode s.cfg.opc s.ahead ≠ .error .noWord) :
    s.ip + 1 < progLen s :=
  (ahead_ne_nil_iff hlow).1 (decode_noWord_iff.not.1 h)

/-! ### What a step answers -/

/-- No step is enabled in a terminal state (R71). -/
theorem step_of_terminal (h : s.runState ≠ .running) : step s = .refused (.notRunning s.runState) := by
  cases hr : s.runState with
  | running => exact absurd hr h
  | halted => simp [step, beginStep, hr]
  | exhausted => simp [step, beginStep, hr]
  | faulted => simp [step, beginStep, hr]

theorem step_of_debug (hr : s.runState = .running) (hd : s.cfg.debug = true) : step s = .refused .debugDump := by
  simp [step, beginStep, hr, hd]

/-- Below the before-start sentinel a step stops at the negative index (R17). -/
theorem step_of_ip_below (hr : s.runState = .running) (hd : s.cfg.debug = false) (hip : s.ip < -1) :
    step s = .fault (.negativeFetchIndex (s.ip + 1)) := by
  have hin : ¬ progLen s ≤ s.ip + 1 := by unfold progLen; omega
  have hmem : memRead s (s.ip + 1) = none := if_pos (by omega)
  simp [step, beginStep, hr, hd, runCycle, fetchNext_eq, hin, hmem]

/-- Only an enabled state has a next one. -/
theorem enabled_of_step (h : step s = .next t) : s.Enabled := by
  by_cases hr : s.runState = .running
  · cases hd : s.cfg.debug with
    | true => simp [step_of_debug hr hd] at h
    | false =>
      by_cases hip : -1 ≤ s.ip
      · exact ⟨hr, hd, hip⟩
      · simp [step_of_ip_below hr hd (by omega)] at h
  · simp [step_of_terminal hr] at h

theorem beginStep_eq_begunOf (hs : s.Enabled) : beginStep s = begunOf s (decode s.cfg.opc s.ahead) := by
  rw [beginStep_enabled hs, runCycle_eq_begunOf hs.ipLow]

/-- A decoded instruction is executed with the IP past its words (R27, R75). -/
theorem step_of_decode_ok (hs : s.Enabled) (hd : decode s.cfg.opc s.ahead = .ok (i, rest)) :
    step s = exec i (s.atIp (s.ip + i.length)) := by
  rw [step, beginStep_eq_begunOf hs, hd, begunOf]

theorem step_of_no_word (hs : s.Enabled) (ha : s.ahead = []) : step s = .next (exhaust s) := by
  rw [step, beginStep_eq_begunOf hs, decode_noWord_iff.2 ha, begunOf]

theorem step_of_truncated (hs : s.Enabled) (hd : decode s.cfg.opc s.ahead = .error .truncated) :
    step s = .next (raiseProgramTruncated (s.atIp (progLen s))) := by
  rw [step, beginStep_eq_begunOf hs, hd, begunOf]

theorem step_of_unknown (hs : s.Enabled) (hd : decode s.cfg.opc s.ahead = .error (.unknownOpcode w)) :
    step s = execUnknown w (s.atIp (s.ip + 1)) := by
  rw [step, beginStep_eq_begunOf hs, hd, begunOf]

/-! ### Everything that a step can come to -/

/-- The register write that an instruction makes, if it makes one: the destination and the value (R85, R88, R89). -/
def assignment : Instr → State → Option (RegKey × Value)
  | .load r v, _     => some (r, sext64 v)
  | .add d r, s      => some (d, alu .add (readReg s d) (readReg s r))
  | .subtract d r, s => some (d, alu .subtract (readReg s d) (readReg s r))
  | .print _, _      => none
  | .halt, _         => none

/-- What an instruction assigns does not depend on the IP (R25). -/
@[simp] theorem assignment_atIp (i : Instr) (s : State) (j : Int) : assignment i (s.atIp j) = assignment i s := by
  cases i <;> rfl

/-- An instruction that assigns does this one write and no more (R21). -/
theorem exec_of_assignment (h : assignment i s = some (k, v)) : exec i s = .next (writeReg k v s) := by
  cases i with
  | load r v => cases h; rfl
  | add d r => cases h; rfl
  | subtract d r => cases h; rfl
  | print r => cases h
  | halt => cases h

/-- The states that a step can lead to, each with what the words ahead are then. -/
inductive StepsTo (s : State) : State → Prop
  | assigns {i : Instr} {rest : List Word} {k : RegKey} {v : Value}
      (hd : decode s.cfg.opc s.ahead = .ok (i, rest)) (ha : assignment i s = some (k, v)) :
      StepsTo s (writeReg k v (s.atIp (s.ip + i.length)))
  | prints {k : RegKey} {rest : List Word} (hd : decode s.cfg.opc s.ahead = .ok (.print k, rest)) :
      StepsTo s (emit (.value (readReg s k)) (s.atIp (s.ip + 2)))
  | halts {rest : List Word} (hd : decode s.cfg.opc s.ahead = .ok (.halt, rest)) :
      StepsTo s (enterHalted (emit .haltNotice (s.atIp (s.ip + 1))))
  | exhausts (ha : s.ahead = []) : StepsTo s (exhaust s)
  | truncated (hd : decode s.cfg.opc s.ahead = .error .truncated) :
      StepsTo s (raiseProgramTruncated (s.atIp (progLen s)))
  | ignores {w : Word} (hd : decode s.cfg.opc s.ahead = .error (.unknownOpcode w))
      (hp : s.cfg.policy = .ignore) : StepsTo s (s.atIp (s.ip + 1))
  | refuses {w : Word} (hd : decode s.cfg.opc s.ahead = .error (.unknownOpcode w))
      (hp : s.cfg.policy = .fault) : StepsTo s (raiseUnknownOpcode w (s.atIp (s.ip + 1)))

/-- From an enabled state a step leads somewhere, to one of the states above. -/
theorem exists_stepsTo (hs : s.Enabled) : ∃ t, step s = .next t ∧ StepsTo s t := by
  cases hd : decode s.cfg.opc s.ahead with
  | ok d =>
    obtain ⟨i, rest⟩ := d
    rw [step_of_decode_ok hs hd]
    cases ha : assignment i s with
    | some a => exact ⟨_, exec_of_assignment ((assignment_atIp i s _).trans ha), .assigns hd ha⟩
    | none =>
      cases i with
      | print r => exact ⟨_, exec_print r _, .prints hd⟩
      | halt => exact ⟨_, exec_halt _, .halts hd⟩
      | load r v => cases ha
      | add d r => cases ha
      | subtract d r => cases ha
  | error e =>
    cases e with
    | noWord => exact ⟨_, step_of_no_word hs (decode_noWord_iff.1 hd), .exhausts (decode_noWord_iff.1 hd)⟩
    | truncated => exact ⟨_, step_of_truncated hs hd, .truncated hd⟩
    | unknownOpcode w =>
      rw [step_of_unknown hs hd]
      cases hp : s.cfg.policy with
      | ignore => exact ⟨_, by simp [execUnknown, hp], .ignores hd hp⟩
      | fault => exact ⟨_, by simp [execUnknown, hp], .refuses hd hp⟩

/-- The inversion of a step: the state was enabled, and the next one is one of those above. -/
theorem step_inversion (h : step s = .next t) : s.Enabled ∧ StepsTo s t := by
  have hs := enabled_of_step h
  obtain ⟨t', h', ht'⟩ := exists_stepsTo hs
  rw [h] at h'
  cases h'
  exact ⟨hs, ht'⟩

end Sys2Proof.Machine
end

section
/-! The invariant (R26, R29, R34, R72, R81, R82, R102, R108, R109): each operation of a step keeps it from Running, and
so every step does. -/

namespace Sys2Proof.Machine

variable {s t : State}

/-! ### What the invariant says in Running -/

theorem State.Inv.fault_eq_none (h : s.Inv) (hr : s.runState = .running) : s.fault = none := by
  have hf := h.faultOk
  unfold State.faultFits at hf
  split at hf
  · assumption
  · obtain ⟨hfaulted, -⟩ := hf
    rw [hr] at hfaulted
    cases hfaulted

theorem State.Inv.logs_eq_nil (h : s.Inv) (hr : s.runState = .running) : s.logs = [] := by
  rw [h.logsOk, hr]
  rfl

theorem State.Inv.haltNotice_notMem (h : s.Inv) (hr : s.runState = .running) : OutEvent.haltNotice ∉ s.out := by
  obtain ⟨hout, -⟩ := h.outOk
  exact hout (by simp [hr])

/-- Without a fault record the run state is any but Faulted (R29). -/
theorem faultFits_of_none (hf : s.fault = none) (hr : s.runState ≠ .faulted) : s.faultFits := by
  unfold State.faultFits
  rwa [hf]

/-- Outside Halted the output holds no halt notice (R82). -/
theorem outFits_of_notMem (hout : OutEvent.haltNotice ∉ s.out) (hr : s.runState ≠ .halted) : s.outFits :=
  ⟨fun _ => hout, fun h => absurd h hr⟩

/-! ### Each operation keeps it -/

/-- The IP may move on inside the program (R26). -/
theorem State.Inv.after_move (h : s.Inv) (hr : s.runState = .running) {i : Int} (hlow : -1 ≤ i) (hin : i < progLen s) :
    (s.atIp i).Inv where
  cfgOk := h.cfgOk
  regsOk := h.regsOk
  writtenOk := h.writtenOk
  regsKnown := h.regsKnown
  ipLow := hlow
  ipHigh := hin.le
  ipInside := fun _ => hin
  atTheEnd := by simp [hr]
  faultOk := faultFits_of_none (h.fault_eq_none hr) (by simp [hr])
  logsOk := h.logsOk
  outOk := outFits_of_notMem (h.haltNotice_notMem hr) (by simp [hr])

/-- A register write keeps the canonical forms, and what it writes is assigned (R21, R34). -/
theorem State.Inv.after_write (h : s.Inv) (k : RegKey) (v : Value) : (writeReg k v s).Inv where
  cfgOk := h.cfgOk
  regsOk := writeReg_keeps_wf s k v h.regsOk
  writtenOk := writeReg_keeps_written_wf s k v h.writtenOk
  regsKnown := by
    intro e he
    rw [writeReg_written, KeySet.mem_add]
    rcases (RegFile.mem_set s.x k v e).1 he with ⟨rfl, -⟩ | ⟨he, -⟩
    · exact .inl rfl
    · exact .inr (h.regsKnown e he)
  ipLow := h.ipLow
  ipHigh := h.ipHigh
  ipInside := h.ipInside
  atTheEnd := h.atTheEnd
  faultOk := h.faultOk
  logsOk := h.logsOk
  outOk := h.outOk

/-- A printed value is no halt notice (R97). -/
theorem State.Inv.after_value (h : s.Inv) (hr : s.runState = .running) (v : Value) : (emit (.value v) s).Inv where
  cfgOk := h.cfgOk
  regsOk := h.regsOk
  writtenOk := h.writtenOk
  regsKnown := h.regsKnown
  ipLow := h.ipLow
  ipHigh := h.ipHigh
  ipInside := h.ipInside
  atTheEnd := h.atTheEnd
  faultOk := h.faultOk
  logsOk := h.logsOk
  outOk := outFits_of_notMem (by simp [h.haltNotice_notMem hr]) (by simp [hr])

/-- Halt at its word, with the notice as the last event (R102). -/
theorem State.Inv.after_halt (h : s.Inv) (hr : s.runState = .running) (hword : memRead s s.ip = some s.cfg.opc.halt) :
    (enterHalted (emit .haltNotice s)).Inv where
  cfgOk := h.cfgOk
  regsOk := h.regsOk
  writtenOk := h.writtenOk
  regsKnown := h.regsKnown
  ipLow := h.ipLow
  ipHigh := h.ipHigh
  ipInside := fun _ => h.ipInside (by simp [hr])
  atTheEnd := by simp
  faultOk := faultFits_of_none (h.fault_eq_none hr) (by simp)
  logsOk := h.logs_eq_nil hr
  outOk := ⟨fun hne => absurd rfl hne, fun _ => ⟨hword, s.out, rfl, h.haltNotice_notMem hr⟩⟩

/-- Exhaustion at the last word logs its one event (R72, R81). -/
theorem State.Inv.after_exhaustion (h : s.Inv) (hr : s.runState = .running) (hend : s.ip + 1 = progLen s) :
    (exhaust s).Inv where
  cfgOk := h.cfgOk
  regsOk := h.regsOk
  writtenOk := h.writtenOk
  regsKnown := h.regsKnown
  ipLow := h.ipLow
  ipHigh := h.ipHigh
  ipInside := fun _ => h.ipInside (by simp [hr])
  atTheEnd := fun _ => hend
  faultOk := faultFits_of_none (h.fault_eq_none hr) (by simp)
  logsOk := by simp [h.logs_eq_nil hr]
  outOk := outFits_of_notMem (h.haltNotice_notMem hr) (by simp)

/-- An exception taken with the IP in the program or at its end, when the record fits (R29, R110). -/
theorem State.Inv.after_exception (h : s.Inv) (hr : s.runState = .running) {c : Cause} {w : Word} {i : Int}
    (hlow : -1 ≤ i) (hhigh : i ≤ progLen s) (hfits : (raiseFault c w (s.atIp i)).faultFits) :
    (raiseFault c w (s.atIp i)).Inv where
  cfgOk := h.cfgOk
  regsOk := h.regsOk
  writtenOk := h.writtenOk
  regsKnown := h.regsKnown
  ipLow := hlow
  ipHigh := hhigh
  ipInside := fun hne => absurd rfl hne
  atTheEnd := by simp
  faultOk := hfits
  logsOk := h.logs_eq_nil hr
  outOk := outFits_of_notMem (h.haltNotice_notMem hr) (by simp)

/-- Settles O48: case by case of what a step can come to, by the operation that makes the next state. -/
theorem stepKeepsInvariant : Obligations.StepKeepsInvariant := by
  intro s t hinv hstep
  obtain ⟨⟨hr, -, hlow⟩, hto⟩ := step_inversion hstep
  cases hto with
  | assigns hd ha => exact (hinv.after_move hr (by omega) (ip_lt_of_decode_ok hlow hd)).after_write _ _
  | prints hd => exact (hinv.after_move hr (by omega) (ip_lt_of_decode_ok hlow hd)).after_value hr _
  | halts hd =>
    exact (hinv.after_move hr (by omega) (ip_lt_of_decode_ok hlow hd)).after_halt hr (memRead_of_decode_halt hlow hd)
  | exhausts ha =>
    have hend := progLen_le_of_ahead_nil hlow ha
    have hin := hinv.ipInside (by simp [hr])
    exact hinv.after_exhaustion hr (by omega)
  | truncated hd =>
    have hnext := ip_lt_of_ahead hlow (by simp [hd])
    exact hinv.after_exception hr (by omega) le_rfl ⟨rfl, rfl, rfl, rfl⟩
  | ignores hd hp => exact hinv.after_move hr (by omega) (ip_lt_of_ahead hlow (by simp [hd]))
  | refuses hd hp =>
    have hnext := ip_lt_of_ahead hlow (by simp [hd])
    exact hinv.after_exception hr (by omega) hnext.le ⟨rfl, rfl, hp, memRead_of_decode_unknown hlow hd⟩

end Sys2Proof.Machine
end

section
/-! What every step keeps, and what it does not read (R21, R25, R32, R36, R39). -/

namespace Sys2Proof.Machine

variable {s t : State}

/-! ### The IP (R25) -/

theorem exec_ip {i : Instr} (h : exec i s = .next t) : t.ip = s.ip := by
  cases i <;> cases h <;> rfl

theorem execUnknown_ip {w : Word} (h : execUnknown w s = .next t) : t.ip = s.ip := by
  rcases execUnknown_cases h with ⟨-, rfl⟩ | ⟨-, rfl⟩ <;> rfl

/-- Every step but the exhausting one consumes a word (R80). -/
theorem StepsTo.ip_lt (hs : s.Enabled) (h : StepsTo s t) (hne : t.runState ≠ .exhausted) : s.ip < t.ip := by
  cases h with
  | @assigns i =>
    have hpos := i.length_pos
    rw [writeReg_ip, atIp_ip]
    omega
  | prints => exact Int.lt_add_of_pos_right _ (by decide)
  | halts => exact Int.lt_succ _
  | exhausts => exact absurd rfl hne
  | truncated hd =>
    have hnext := ip_lt_of_ahead hs.ipLow (by simp [hd])
    rw [raiseProgramTruncated_eq, raiseFault_ip, atIp_ip]
    omega
  | ignores => exact Int.lt_succ _
  | refuses => exact Int.lt_succ _

theorem StepsTo.ip_le (hs : s.Enabled) (h : StepsTo s t) : s.ip ≤ t.ip := by
  by_cases hex : t.runState = .exhausted
  · cases h with
    | exhausts => exact le_rfl
    | assigns => simp [hs.running] at hex
    | prints => simp [hs.running] at hex
    | ignores => simp [hs.running] at hex
    | halts => cases hex
    | truncated => cases hex
    | refuses => cases hex
  · exact (h.ip_lt hs hex).le

/-- Settles O20: the fetch by its cases, the effects by their equations, the step by what it can come to. -/
theorem ipChangesByFetchOnly : Obligations.IpChangesByFetchOnly := by
  refine ⟨fun s t w h => ?_, fun s t h => ?_, fun i s t => exec_ip, fun w s t => execUnknown_ip, exhaust_ip,
    fun s t h => ?_⟩
  · rcases fetchNext_cases s with ⟨w', -, -, hf⟩ | ⟨-, hf⟩ | ⟨-, hf⟩ <;> rw [hf] at h <;> cases h
    rfl
  · rcases fetchNext_cases s with ⟨w', -, -, hf⟩ | ⟨-, hf⟩ | ⟨-, hf⟩ <;> rw [hf] at h <;> cases h
    rfl
  · obtain ⟨hs, hto⟩ := step_inversion h
    exact ⟨hto.ip_le hs, fun hr => hto.ip_lt hs (by simp [hr])⟩

/-! ### The launch parameters and the reserved stack (R32, R36, R39) -/

/-- The part of the state that no step changes. -/
structure State.SameLaunch (s t : State) : Prop where
  program : t.program = s.program
  cfg     : t.cfg = s.cfg
  stack   : t.stack = s.stack
  sp      : t.sp = s.sp

theorem StepsTo.sameLaunch (h : StepsTo s t) : s.SameLaunch t := by
  cases h <;> exact ⟨rfl, rfl, rfl, rfl⟩

/-- A read of the program memory depends on the program alone (R17). -/
theorem memRead_congr (h : t.program = s.program) (i : Int) : memRead t i = memRead s i := by
  unfold memRead
  rw [h]

/-- Settles O22: each state that a step can lead to is made by operations that leave these fields alone. -/
theorem stepKeepsLaunchParameters : Obligations.StepKeepsLaunchParameters := by
  intro s t h
  obtain ⟨-, hto⟩ := step_inversion h
  obtain ⟨hprogram, hcfg, hstack, hsp⟩ := hto.sameLaunch
  exact ⟨hprogram, hcfg, hstack, hsp, memRead_congr hprogram⟩

/-! ### The register file (R21) -/

/-- Only Load, Add and Subtract assign, and they assign their destination (R85, R88, R89). -/
theorem assignment_dst {i : Instr} {k : RegKey} {v : Value} (h : assignment i s = some (k, v)) :
    (∃ v, i = .load k v) ∨ (∃ src, i = .add k src) ∨ (∃ src, i = .subtract k src) := by
  cases i with
  | load r v => cases h; exact .inl ⟨_, rfl⟩
  | add d r => cases h; exact .inr (.inl ⟨_, rfl⟩)
  | subtract d r => cases h; exact .inr (.inr ⟨_, rfl⟩)
  | print r => cases h
  | halt => cases h

/-- Settles O26: a step reads differently in a register only where it assigns that one. -/
theorem registerWriteReplacesOne : Obligations.RegisterWriteReplacesOne := by
  refine ⟨fun s k v => ⟨readReg_writeReg_self s k v, fun k' hk => readReg_writeReg_ne s v hk⟩, fun s t k h hne => ?_⟩
  obtain ⟨-, hto⟩ := step_inversion h
  cases hto with
  | @assigns i rest d v hd ha =>
    have hk : k = d := by
      by_contra hk
      exact hne (readReg_writeReg_ne _ v hk)
    subst hk
    exact ⟨i, rest, hd, assignment_dst ha⟩
  | prints => exact absurd rfl hne
  | halts => exact absurd rfl hne
  | exhausts => exact absurd rfl hne
  | truncated => exact absurd rfl hne
  | ignores => exact absurd rfl hne
  | refuses => exact absurd rfl hne

/-! ### What no step reads (R32, R34) -/

/-- Settles O23: where no step is enabled both states stop alike, and otherwise both take the case of the
words ahead. -/
theorem inertStateIsUnread : Obligations.InertStateIsUnread := by
  intro s stack sp written
  by_cases hr : s.runState = .running
  case neg => rw [step_of_terminal hr, step_of_terminal (by exact hr)]; rfl
  cases hdebug : s.cfg.debug with
  | true => rw [step_of_debug hr hdebug, step_of_debug (by exact hr) (by exact hdebug)]; rfl
  | false =>
    by_cases hlow : -1 ≤ s.ip
    case neg =>
      have hip : s.ip < -1 := by omega
      rw [step_of_ip_below hr hdebug hip, step_of_ip_below (by exact hr) (by exact hdebug) (by exact hip)]; rfl
    have hs : s.Enabled := ⟨hr, hdebug, hlow⟩
    have hs' : State.Enabled { s with stack := stack, sp := sp, written := written } := ⟨hr, hdebug, hlow⟩
    cases hd : decode s.cfg.opc s.ahead with
    | ok d =>
      obtain ⟨i, rest⟩ := d
      rw [step_of_decode_ok hs hd, step_of_decode_ok hs' hd]
      cases i <;> rfl
    | error e =>
      cases e with
      | noWord =>
        have ha := decode_noWord_iff.1 hd
        rw [step_of_no_word hs ha, step_of_no_word hs' ha]
        rfl
      | truncated =>
        rw [step_of_truncated hs hd, step_of_truncated hs' hd]
        rfl
      | unknownOpcode w =>
        rw [step_of_unknown hs hd, step_of_unknown hs' hd]
        cases hp : s.cfg.policy <;> simp [execUnknown, hp, mapNext] <;> rfl

end Sys2Proof.Machine
end

section
/-! What each instruction does as a step, whole and truncated (R85, R88, R89, R96, R108). -/

namespace Sys2Proof.Machine

variable {s t : State}

/-! ### Frames (R21, R22) -/

theorem onlyRegChanges_writeReg (s : State) (k : RegKey) (v : Value) : s.OnlyRegChanges (writeReg k v s) k where
  others := fun _ hk => readReg_writeReg_ne s v hk
  written := KeySet.mem_add s.written k

theorem sameRest_writeReg (s : State) (k : RegKey) (v : Value) : s.SameRest (writeReg k v s) :=
  ⟨rfl, rfl, rfl, rfl, rfl, rfl, fun _ => rfl⟩

theorem sameRest_emit (s : State) (e : OutEvent) : s.SameRest (emit e s) :=
  ⟨rfl, rfl, rfl, rfl, rfl, rfl, fun _ => rfl⟩

/-- Where the IP stood before does not enter a frame. -/
theorem State.SameRest.of_atIp {i : Int} (h : (s.atIp i).SameRest t) : s.SameRest t :=
  ⟨h.fault, h.logs, h.stack, h.sp, h.cfg, h.program, h.words⟩

theorem State.OnlyRegChanges.of_atIp {i : Int} {k : RegKey} (h : (s.atIp i).OnlyRegChanges t k) :
    s.OnlyRegChanges t k :=
  ⟨h.others, h.written⟩

/-- Settles O30: the one write of Load, and its frame. -/
theorem execLoadResult : Obligations.ExecLoadResult := by
  intro reg value s
  refine ⟨_, exec_load reg value s, ?_, onlyRegChanges_writeReg s _ _, sameRest_writeReg s _ _, rfl, rfl, rfl⟩
  rw [readReg_writeReg_self, sext64_toInt]

/-- Settles O14: the fetch loop agrees with the decoder on the words ahead. -/
theorem stepRunsDecodedInstruction : Obligations.StepRunsDecodedInstruction :=
  fun _ _ _ hs hd => step_of_decode_ok hs hd

/-! ### A whole instruction that assigns, and one cut off by the end -/

/-- A step of an instruction that assigns (R21, R27). -/
theorem step_of_assignment (hs : s.Enabled) {i : Instr} {rest : List Word} {k : RegKey} {v : Value}
    (hd : decode s.cfg.opc s.ahead = .ok (i, rest)) (ha : assignment i s = some (k, v)) :
    ∃ t, step s = .next t ∧ readReg t k = v ∧ s.OnlyRegChanges t k ∧ s.SameRest t ∧
      t.ip = s.ip + i.length ∧ t.runState = .running ∧ t.out = s.out := by
  have hexec := exec_of_assignment ((assignment_atIp i s (s.ip + i.length)).trans ha)
  exact ⟨_, (step_of_decode_ok hs hd).trans hexec, readReg_writeReg_self _ k v,
    (onlyRegChanges_writeReg _ k v).of_atIp, (sameRest_writeReg _ k v).of_atIp, rfl, hs.running, rfl⟩

/-- A truncated step writes no register and emits nothing (R108, R110). -/
theorem step_truncated_frame (hs : s.Enabled) (hd : decode s.cfg.opc s.ahead = .error .truncated) :
    ∃ t, step s = .next t ∧ s.EndsTruncated t ∧ s.SameRegs t ∧ t.out = s.out :=
  ⟨_, step_of_truncated hs hd, ⟨rfl, rfl, rfl⟩, ⟨fun _ => rfl, rfl⟩, rfl⟩

/-- An opcode with two operands, cut off after the opcode or after the first operand (R56). -/
theorem decode_truncated_of_two {o : Opc} {w : Word} {ws : List Word} (hcount : operandCount (decodeOp o w) = 2)
    (h : ws = [w] ∨ ∃ a, ws = [w, a]) : decode o ws = .error .truncated := by
  rcases h with rfl | ⟨a, rfl⟩ <;> exact decode_of_short (by simp [hcount])

/-- The value of an ALU result is the balanced remainder of the exact one (R91). -/
theorem wrap64_toInt (n : Int) : (wrap64 n).toInt = n.bmod (2 ^ 64) :=
  BitVec.toInt_ofInt ..

/-! ### The steps -/

/-- Settles O34: Load decodes from its words and assigns the widened immediate. -/
theorem loadStep : Obligations.LoadStep := by
  intro s hs hopc
  have hop := decodeOp_load s.cfg.opc
  refine ⟨fun r v rest ha => ?_, fun ha => step_truncated_frame hs (decode_truncated_of_two (by rw [hop]; rfl) ha)⟩
  obtain ⟨t, hstep, hread, hframe⟩ := step_of_assignment hs (ha ▸ decode_of_load hop r v rest) rfl
  exact ⟨t, hstep, hread.trans (sext64_eq_signExtend v), hframe⟩

/-- Settles O35: Add decodes from its words and assigns the wrapped sum of what was read before. -/
theorem addStep : Obligations.AddStep := by
  intro s hs hopc
  have hop := decodeOp_add hopc
  refine ⟨fun d r rest ha => ?_, fun ha => step_truncated_frame hs (decode_truncated_of_two (by rw [hop]; rfl) ha)⟩
  obtain ⟨t, hstep, hread, hframe⟩ := step_of_assignment hs (ha ▸ decode_of_add hop d r rest) rfl
  exact ⟨t, hstep, hread ▸ wrap64_toInt _, hframe⟩

/-- Settles O36: Subtract decodes from its words and assigns the wrapped difference of what was read before. -/
theorem subtractStep : Obligations.SubtractStep := by
  intro s hs hopc
  have hop := decodeOp_subtract hopc
  refine ⟨fun d r rest ha => ?_, fun ha => step_truncated_frame hs (decode_truncated_of_two (by rw [hop]; rfl) ha)⟩
  obtain ⟨t, hstep, hread, hframe⟩ := step_of_assignment hs (ha ▸ decode_of_subtract hop d r rest) rfl
  exact ⟨t, hstep, hread ▸ wrap64_toInt _, hframe⟩

/-- Settles O37: Print decodes from its words and emits the register's value. -/
theorem printStep : Obligations.PrintStep := by
  intro s hs hopc
  have hop := decodeOp_print hopc
  constructor
  · intro r rest ha
    have hd : decode s.cfg.opc s.ahead = .ok (.print (u32 r), rest) := by rw [ha, decode_of_print hop]
    exact ⟨_, (step_of_decode_ok hs hd).trans (exec_print _ _), rfl, ⟨fun _ => rfl, rfl⟩,
      (sameRest_emit _ _).of_atIp, rfl, hs.running⟩
  · intro ha
    refine step_truncated_frame hs ?_
    rw [ha]
    exact decode_of_short (by simp [hop, operandCount])

end Sys2Proof.Machine
end

section
/-! The program placed at the next fetch index (R24, R38), and the IP through the phases of a step (R27, R77). -/

namespace Sys2Proof.Machine

/-! ### Placed words -/

/-- Placed words stand at their index. -/
theorem drop_placeWords (p : List Word) (i : Nat) (ws : List Word) :
    (placeWords p i ws).drop i = ws ++ p.drop (i + ws.length) := by
  have hlen : ((p ++ List.replicate (i - p.length) 0).take i).length = i := by
    simp only [List.length_take, List.length_append, List.length_replicate]
    omega
  unfold placeWords
  rw [List.append_assoc, List.drop_left' hlen]

/-- Placing words leaves every word before their index. -/
theorem getElem?_placeWords_of_lt (p : List Word) {i j : Nat} (ws : List Word) (hji : j < i) (hjp : j < p.length) :
    (placeWords p i ws)[j]? = p[j]? := by
  have hlen : j < ((p ++ List.replicate (i - p.length) 0).take i).length := by
    simp only [List.length_take, List.length_append, List.length_replicate]
    omega
  unfold placeWords
  rw [List.append_assoc, List.getElem?_append_left hlen, List.getElem?_take_of_lt hji, List.getElem?_append_left hjp]

/-- A word of the program by a natural index (R17). -/
theorem memRead_natCast (s : State) (i : Nat) : memRead s i = s.program[i]? := by
  unfold memRead
  rw [if_neg (by omega), Int.toNat_natCast]

/-- Settles O13: what placing words does to the program, at the next fetch index. -/
theorem placedWordsComeNext : Obligations.PlacedWordsComeNext := by
  intro s nbits w hlow
  refine ⟨⟨_, drop_placeWords s.program (s.ip + 1).toNat (tableWords nbits w)⟩, rfl, fun i hip hin => ?_⟩
  rw [memRead_natCast, memRead_natCast]
  exact getElem?_placeWords_of_lt s.program _ (by omega) (by unfold progLen at hin; omega)

/-! ### The phases -/

/-- The block after a step's last phase is between two steps (R77). -/
theorem atBoundary_atEnd (s : State) : atBoundary (atEnd s) = true := by
  cases hr : s.runState <;> simp [atEnd, endPhase, atBoundary, hr]

/-- DECODE hands on the IP at the opcode word (R77). -/
theorem ipOnEntry_afterDecode (d : DecodedOp) (s : State) :
    ipOnEntry s.ip (afterDecode d s).phase = some (afterDecode d s).core.ip := by
  unfold afterDecode
  split
  · next hzero => simp [ipOnEntry, hzero]
  · simp [ipOnEntry]

/-- An operand fetch hands on the IP at the operand word (R77). -/
theorem ipOnEntry_afterOperand {a : Int} {d : DecodedOp} {got : Nat} (first w : Word) {s : State}
    (hip : s.ip = a + got + 1) :
    ipOnEntry a (afterOperand d got first w s).phase = some (afterOperand d got first w s).core.ip := by
  by_cases hlast : got + 1 = operandCount d
  · simp only [afterOperand, if_pos hlast, ipOnEntry, hip]
    rw [← hlast, Nat.cast_succ, add_assoc]
  · simp only [afterOperand, if_neg hlast, ipOnEntry, hip, Nat.cast_succ, add_assoc]

/-- EXECUTE leaves the IP where the fetches brought it (R25). -/
theorem executePhase_ip {d : DecodedOp} {first second : Word} {s t : State}
    (h : executePhase d first second s = .next t) : t.ip = s.ip := by
  cases d with
  | unknown w => exact execUnknown_ip h
  | load => exact exec_ip (i := .load (u32 first) second) h
  | add => exact exec_ip (i := .add (u32 first) (u32 second)) h
  | subtract => exact exec_ip (i := .subtract (u32 first) (u32 second)) h
  | print => exact exec_ip (i := .print (u32 first)) h
  | halt => exact exec_ip (i := .halt) h

/-- A mapped outcome is a next state only where the outcome was one. -/
theorem mapNext_eq_next {α β : Type} {f : α → β} {o : Host.Outcome α Fault Refusal} {b : β}
    (h : mapNext f o = .next b) : ∃ a, o = .next a ∧ b = f a := by
  cases o with
  | next a => cases h; exact ⟨a, rfl, rfl⟩
  | fault r => cases h
  | refused r => cases h

/-- Settles O25: phase by phase, from the IP that the fetch of the phase leaves. -/
theorem phasesCarryTheIp : Obligations.PhasesCarryTheIp := by
  rintro a ⟨phase, s⟩ b' hentry hphase
  cases phase with
  | check =>
    simp only [phaseStep] at hphase
    split at hphase <;> cases hphase
    · exact ⟨by simp [atBoundary_atEnd], nofun⟩
    · exact ⟨fun _ => hentry, nofun⟩
  | fetchOp =>
    have hip : a - 1 = s.ip := Option.some.inj hentry
    rcases fetchNext_cases s with ⟨w, -, -, hf⟩ | ⟨-, hf⟩ | ⟨-, hf⟩ <;>
      simp only [phaseStep, hf] at hphase <;> cases hphase
    · exact ⟨fun _ => by simp [ipOnEntry, ← hip], nofun⟩
    · exact ⟨by simp [atBoundary_atEnd], nofun⟩
  | decode op =>
    obtain rfl : a = s.ip := Option.some.inj hentry
    cases hphase
    exact ⟨fun _ => ipOnEntry_afterDecode _ s, nofun⟩
  | fetchOperand d got first =>
    have hip : a + got = s.ip := Option.some.inj hentry
    rcases fetchNext_cases s with ⟨w, -, -, hf⟩ | ⟨-, hf⟩ | ⟨-, hf⟩ <;>
      simp only [phaseStep, hf] at hphase <;> cases hphase
    · exact ⟨fun _ => ipOnEntry_afterOperand first w (by rw [advanceIp_ip, hip]), nofun⟩
    · exact ⟨by simp [atBoundary_atEnd], nofun⟩
  | execute d first second =>
    have hip : a + operandCount d = s.ip := Option.some.inj hentry
    obtain ⟨t, hexec, rfl⟩ := mapNext_eq_next hphase
    refine ⟨by simp [atBoundary_atEnd], ?_⟩
    rintro d' u v ⟨⟩
    exact (executePhase_ip hexec).trans hip.symm
  | stopped => cases hentry

end Sys2Proof.Machine
end

section
/-! The signals of a step (R112, R140): the events that a step appends, and what the fault ports show of a record. -/

namespace Sys2Proof.Machine

variable {s t : State}

/-! ### The events of a step (R97, R98) -/

/-- A step appends at most one output event. -/
theorem StepsTo.out_cases (h : StepsTo s t) : t.out = s.out ∨ ∃ e, t.out = s.out ++ [e] := by
  cases h with
  | prints => exact .inr ⟨_, rfl⟩
  | halts => exact .inr ⟨_, rfl⟩
  | assigns => exact .inl rfl
  | exhausts => exact .inl rfl
  | truncated => exact .inl rfl
  | ignores => exact .inl rfl
  | refuses => exact .inl rfl

/-- A step logs its one event exactly where it ends Exhausted (R72, R81). -/
theorem StepsTo.logs_cases (hr : s.runState = .running) (h : StepsTo s t) :
    (t.logs = s.logs ++ [.exhausted] ∧ t.runState = .exhausted) ∨ (t.logs = s.logs ∧ t.runState ≠ .exhausted) := by
  cases h with
  | exhausts => exact .inl ⟨rfl, rfl⟩
  | assigns => exact .inr ⟨rfl, by simp [hr]⟩
  | prints => exact .inr ⟨rfl, by simp [hr]⟩
  | ignores => exact .inr ⟨rfl, by simp [hr]⟩
  | halts => exact .inr ⟨rfl, nofun⟩
  | truncated => exact .inr ⟨rfl, nofun⟩
  | refuses => exact .inr ⟨rfl, nofun⟩

/-! ### The ports -/

/-- The output port shows the event that was appended (R140). -/
theorem ports_outEvent_iff (hout : t.out = s.out ∨ ∃ e, t.out = s.out ++ [e]) (e : OutEvent) :
    (ports s t).outEvent = some e ↔ t.out = s.out ++ [e] := by
  rcases hout with h | ⟨e', h⟩ <;> simp [ports, h]

/-- The log port pulses exactly with the exhaustion (R140). -/
theorem ports_logValid_iff (hr : s.runState = .running) (h : StepsTo s t) :
    (ports s t).logValid = true ↔ t.runState = .exhausted := by
  rcases h.logs_cases hr with ⟨hlogs, hrun⟩ | ⟨hlogs, hrun⟩ <;> simp [ports, hlogs, hrun]

theorem ports_faultCause_of_none (hf : t.fault = none) : (ports s t).faultCause = 0 := by
  simp [ports, hf]

theorem ports_faultCause_of_record {r : FaultRecord} (hf : t.fault = some r) :
    (ports s t).faultCause = causeCode r.cause := by
  simp [ports, hf]

/-- The fault code port tells the three cases apart (D14). -/
theorem ports_faultCause_iff (s t : State) :
    ((ports s t).faultCause = 0 ↔ t.fault = none) ∧
    ((ports s t).faultCause = 1 ↔ ∃ r, t.fault = some r ∧ r.cause = .programTruncated) ∧
    ((ports s t).faultCause = 2 ↔ ∃ r, t.fault = some r ∧ r.cause = .unknownOpcode) := by
  cases hf : t.fault with
  | none => simp [ports_faultCause_of_none hf]
  | some r =>
    rw [ports_faultCause_of_record hf]
    cases hc : r.cause <;> simp [causeCode, hc]

/-- Settles O42: each port by its lemma, the program port as the read at the index after `t`'s IP. -/
theorem portsShowTheStep : Obligations.PortsShowTheStep := by
  intro s t h
  obtain ⟨hs, hto⟩ := step_inversion h
  obtain ⟨hnone, htruncated, hunknown⟩ := ports_faultCause_iff s t
  have hlow : -1 ≤ t.ip := hs.ipLow.trans (hto.ip_le hs)
  exact ⟨ports_outEvent_iff hto.out_cases, ports_logValid_iff hs.running hto, rfl, hnone, htruncated, hunknown,
    fun r hf => by simp [ports, hf], fun hf => by simp [ports, hf], rfl, memRead_next hlow⟩

end Sys2Proof.Machine
end

section
/-! What Add and Subtract do in every state (R52, R88 to R91). -/

namespace Sys2Proof.Machine

variable {s : State} {i : Instr} {k : RegKey} {v : Value}

/-! ### The ALU (R91, D6) -/

/-- The wrapped exact sum is the sum of the words. -/
theorem alu_add (a b : Value) : alu .add a b = a + b := by
  rw [← BitVec.toInt_inj, alu, wrap64_toInt, BitVec.toInt_add]

/-- The wrapped exact difference is the difference of the words. -/
theorem alu_subtract (a b : Value) : alu .subtract a b = a - b := by
  rw [← BitVec.toInt_inj, alu, wrap64_toInt, BitVec.toInt_sub]

/-- An exact sum of equal values is twice the value. -/
theorem alu_add_self (a : Value) : alu .add a a = wrap64 (2 * a.toInt) := by
  rw [alu, two_mul]

theorem alu_subtract_self (a : Value) : alu .subtract a a = 0 :=
  (alu_subtract a a).trans (BitVec.sub_self a)

/-! ### The effects -/

/-- An instruction that assigns completes in every state, and changes its destination alone (R21). -/
theorem exec_assignment_frame (h : assignment i s = some (k, v)) :
    ∃ t, exec i s = .next t ∧ readReg t k = v ∧ s.OnlyRegChanges t k ∧ s.SameRest t ∧
      t.ip = s.ip ∧ t.runState = s.runState ∧ t.out = s.out :=
  ⟨_, exec_of_assignment h, readReg_writeReg_self s k v, onlyRegChanges_writeReg s k v, sameRest_writeReg s k v,
    rfl, rfl, rfl⟩

/-- Settles O31: each of the two assigns its ALU result, which is the sum or difference of the words. -/
theorem execAddSubtractResult : Obligations.ExecAddSubtractResult := by
  intro dst src s
  constructor
  · obtain ⟨t, hexec, hread, hframe⟩ := exec_assignment_frame (i := .add dst src) (s := s) rfl
    exact ⟨t, hexec, hread.trans (alu_add _ _), hframe⟩
  · obtain ⟨t, hexec, hread, hframe⟩ := exec_assignment_frame (i := .subtract dst src) (s := s) rfl
    exact ⟨t, hexec, hread.trans (alu_subtract _ _), hframe⟩

/-- Settles O39: both operands are read before the write, so the ALU gets one value twice. -/
theorem sameRegisterOperands : Obligations.SameRegisterOperands := by
  intro k s
  constructor
  · obtain ⟨t, hexec, hread, -⟩ := exec_assignment_frame (i := .add k k) (s := s) rfl
    exact ⟨t, hexec, hread.trans (alu_add_self _)⟩
  · obtain ⟨t, hexec, hread, -⟩ := exec_assignment_frame (i := .subtract k k) (s := s) rfl
    exact ⟨t, hexec, hread.trans (alu_subtract_self _)⟩

end Sys2Proof.Machine
end

section
/-! The encoding of instructions as words, and of assembler items (R53 to R69): the opcode compare, the round trips of
the decoder, its refusals, and the words of an item. -/

namespace Sys2Proof

variable {o : Opc} {w : Word}

/-! ### The opcode compare (R54, R62) -/

/-- The word that a decoded opcode stands for: its value in the binding, or the unknown word itself. -/
def opcodeWord (o : Opc) : DecodedOp → Word
  | .load      => o.load
  | .add       => o.add
  | .subtract  => o.subtract
  | .print     => o.print
  | .halt      => o.halt
  | .unknown w => w

/-- A decoded opcode keeps the whole word that it was decoded from, so decoding is injective (R54). -/
theorem opcodeWord_decodeOp (o : Opc) (w : Word) : opcodeWord o (decodeOp o w) = w := by
  rcases decodeOp_cases o w with ⟨hd, rfl⟩ | ⟨hd, rfl⟩ | ⟨hd, rfl⟩ | ⟨hd, rfl⟩ | ⟨hd, rfl⟩ | ⟨hd, -⟩
  all_goals simp only [hd, opcodeWord]

theorem eq_opcodeWord_of_decodeOp {d : DecodedOp} (h : decodeOp o w = d) : w = opcodeWord o d := by
  rw [← h, opcodeWord_decodeOp]

theorem decodeOp_eq_iff {d : DecodedOp} (hd : decodeOp o (opcodeWord o d) = d) :
    decodeOp o w = d ↔ w = opcodeWord o d :=
  ⟨eq_opcodeWord_of_decodeOp, fun h => h ▸ hd⟩

/-- Only a word outside the binding decodes to unknown, and names itself (R63): of the cases of `decodeOp`, five answer
another constructor. -/
theorem decodeOp_eq_unknown_iff {u : Word} : decodeOp o w = .unknown u ↔ u = w ∧ w ∉ o.values := by
  constructor
  · intro h
    have hcases := decodeOp_cases o w
    rw [h] at hcases
    simpa using hcases
  · rintro ⟨rfl, hw⟩
    exact decodeOp_unknown hw

/-- The mask of R54 has all 32 bits. -/
theorem and_opcodeMask (w : Word) : w &&& 0xFFFFFFFF = w := BitVec.and_allOnes

/-- Settles O3: an opcode's value decodes to it when the values are distinct, and a decoded opcode keeps its word. -/
theorem opcodeSelectedByWholeWord : Obligations.OpcodeSelectedByWholeWord := by
  intro o ho w
  refine ⟨decodeOp_eq_iff (decodeOp_load o), decodeOp_eq_iff (decodeOp_add ho), decodeOp_eq_iff (decodeOp_subtract ho),
    decodeOp_eq_iff (decodeOp_print ho), decodeOp_eq_iff (decodeOp_halt ho), fun u => decodeOp_eq_unknown_iff, ?_⟩
  intro v _
  rw [and_opcodeMask]

/-! ### The round trips (R53, R64, R69) -/

/-- Settles O1: with distinct values each opcode word selects its own constructor, and a key is found again from its
operand word. -/
theorem decodeInvertsEncode : Obligations.DecodeInvertsEncode := by
  intro o ho i rest
  cases i with
  | load r v =>
    have hwords := decode_of_load (decodeOp_load o) (regWord r) v rest
    rwa [u32_regWord] at hwords
  | add d s =>
    have hwords := decode_of_add (decodeOp_add ho) (regWord d) (regWord s) rest
    rwa [u32_regWord, u32_regWord] at hwords
  | subtract d s =>
    have hwords := decode_of_subtract (decodeOp_subtract ho) (regWord d) (regWord s) rest
    rwa [u32_regWord, u32_regWord] at hwords
  | print r =>
    have hwords := decode_of_print (decodeOp_print ho) (regWord r) rest
    rwa [u32_regWord] at hwords
  | halt => exact decode_of_halt (decodeOp_halt ho) rest

/-- Settles O2: an answer of the decoder fits the words that it read, whatever the binding. -/
theorem encodeInvertsDecode : Obligations.EncodeInvertsDecode :=
  fun _ _ _ _ => eq_encode_of_decode_ok

/-! ### The refusals (R56, R63, R64) -/

theorem decode_noWord_iff_nil {ws : List Word} : decode o ws = .error .noWord ↔ ws = [] :=
  ⟨eq_nil_of_decode_noWord, fun h => h ▸ rfl⟩

theorem decode_unknownOpcode_iff {ws : List Word} :
    decode o ws = .error (.unknownOpcode w) ↔ ws.head? = some w ∧ w ∉ o.values := by
  constructor
  · exact head_of_decode_unknown
  · rintro ⟨hhead, hw⟩
    obtain ⟨rest, rfl⟩ := List.head?_eq_some_iff.1 hhead
    exact decode_of_unknown (decodeOp_unknown hw) rest

/-- Only a missing operand word truncates: with all of them the words decode, and an unknown opcode has none. -/
theorem decode_cons_truncated_iff {rest : List Word} :
    decode o (w :: rest) = .error .truncated ↔ rest.length < operandCount (decodeOp o w) := by
  constructor
  · intro h
    cases headWords o w rest with
    | short hshort => exact hshort
    | load r v rest hd => simp [decode_of_load hd] at h
    | add d r rest hd => simp [decode_of_add hd] at h
    | subtract d r rest hd => simp [decode_of_subtract hd] at h
    | print r rest hd => simp [decode_of_print hd] at h
    | halt rest hd => simp [decode_of_halt hd] at h
    | unknown rest hd => simp [decode_of_unknown hd] at h
  · exact decode_of_short

/-- A word that takes operands is one of the five opcode values. -/
theorem mem_values_of_lt_operandCount {n : Nat} (h : n < operandCount (decodeOp o w)) : w ∈ o.values := by
  by_contra hw
  rw [decodeOp_unknown hw] at h
  exact Nat.not_lt_zero n h

theorem decode_truncated_iff {ws : List Word} : decode o ws = .error .truncated ↔
    ∃ w rest, ws = w :: rest ∧ w ∈ o.values ∧ rest.length < operandCount (decodeOp o w) := by
  constructor
  · intro h
    cases ws with
    | nil => cases h
    | cons w rest =>
      have hshort := decode_cons_truncated_iff.1 h
      exact ⟨w, rest, rfl, mem_values_of_lt_operandCount hshort, hshort⟩
  · rintro ⟨w, rest, rfl, -, hshort⟩
    exact decode_cons_truncated_iff.2 hshort

/-- Settles O4: an equivalence for each of the three errors. -/
theorem decodeRefusesByName : Obligations.DecodeRefusesByName :=
  fun _ _ => ⟨decode_noWord_iff_nil, fun _ => decode_unknownOpcode_iff, decode_truncated_iff⟩

end Sys2Proof

namespace Sys2Proof.Machine

/-! ### The assembler items (R66, R67, R69) -/

/-- An item has words exactly when its operands are in range (R66). -/
theorem isSome_asmWords_iff (o : Opc) (a : AsmItem) : (asmWords o a).isSome ↔ a.wf = true := by
  by_cases hwf : a.wf = true
  · cases a <;> simp [asmWords, hwf]
  · simp [asmWords, hwf]

/-- The word of an integer in range has that signed value (R66). -/
theorem toInt_ofInt_of_inWordRange {n : Int} (h : inWordRange n) : (BitVec.ofInt 32 n : Word).toInt = n := by
  obtain ⟨hlow, hhigh⟩ := h
  rw [BitVec.toInt_ofInt]
  exact Int.bmod_eq_of_le (by omega) (by omega)

/-- Settles O6: an item in range has its words by the table of R69, and the integers in range are the signed values of
the words. -/
theorem assemblerItemWords : Obligations.AssemblerItemWords := by
  intro o a
  refine ⟨isSome_asmWords_iff o a, ?_, fun n hn => ⟨toInt_ofInt_of_inWordRange hn, toInt_ofInt_of_inWordRange hn⟩, rfl⟩
  intro hwf
  cases a <;> exact if_pos hwf

end Sys2Proof.Machine
end

section
/-! When a step answers a next state (R71), and the two steps that end a run with the words ahead read from the
program: the truncated instruction (R73) and Halt (R102). -/

namespace Sys2Proof.Machine

/-- Settles O15: in Running every premise of an enabled step is met; elsewhere the step is the refusal. -/
theorem stepEnabledExactlyInRunning : Obligations.StepEnabledExactlyInRunning := by
  intro s hdebug hlow
  refine ⟨⟨fun ⟨t, h⟩ => (enabled_of_step h).running, fun hr => ?_⟩, step_of_terminal⟩
  obtain ⟨t, h, -⟩ := exists_stepsTo ⟨hr, hdebug, hlow⟩
  exact ⟨t, h⟩

/-- Settles O17: the operand fetch that fails leaves the IP at `N`, where the exception is raised. -/
theorem truncatedInstructionFaults : Obligations.TruncatedInstructionFaults :=
  fun _ hs hd => step_of_truncated hs hd

/-- Settles O38: the next word decodes to Halt, whose effect leaves Running. -/
theorem haltStep : Obligations.HaltStep := by
  intro s rest hs hopc ha
  have hd : decode s.cfg.opc s.ahead = .ok (.halt, rest) := by rw [ha, decode_of_halt (decodeOp_halt hopc)]
  exact ⟨_, (step_of_decode_ok hs hd).trans (exec_halt _), rfl, rfl, rfl, memRead_of_decode_halt hs.ipLow hd,
    ⟨fun _ => rfl, rfl⟩, ⟨rfl, rfl, rfl, rfl, rfl, rfl, fun _ => rfl⟩, step_of_terminal nofun⟩

end Sys2Proof.Machine
end

section
/-! One step by the phases of the IP state machine (R77): each phase's share of the step, from EXECUTE back to CHECK. -/

namespace Sys2Proof.Machine

/-- What a step answers once its fetch and decode part is done (R76). -/
def Begun.outcome : Begun → Host.Outcome State Fault Refusal
  | .instr i s   => exec i s
  | .unknown w s => execUnknown w s
  | .ended s     => .next s
  | .stuck f     => .fault f
  | .refused r   => .refused r

theorem step_eq_outcome (s : State) : step s = (beginStep s).outcome := by
  unfold step
  cases beginStep s <;> rfl

/-! ### Phases inside a step, and its last one -/

/-- A phase that another follows hands on to it. -/
theorem toBoundary_of_inner {b b' : Block} (h : phaseStep b = .next b') (hb : atBoundary b' = false) (fuel : Nat) :
    toBoundary (fuel + 1) b = toBoundary fuel b' := by
  simp [toBoundary, h, hb]

/-- The last phase of a step answers what the step does. -/
theorem toBoundary_of_last {b : Block} {o : Host.Outcome State Fault Refusal} (h : phaseStep b = mapNext atEnd o)
    (fuel : Nat) : toBoundary (fuel + 1) b = mapNext atEnd o := by
  cases o <;> simp [toBoundary, h, mapNext, atBoundary_atEnd]

/-- Only the opcode fetch and the operand fetches reach for a word (R77). -/
theorem phase_of_phaseFetch {b : Block} {f : ProgFetch} (h : phaseFetch b = some f) :
    b.phase = .fetchOp ∨ ∃ d got first, b.phase = .fetchOperand d got first := by
  unfold phaseFetch at h
  split at h
  · next hp => exact .inl hp
  · next hp => exact .inr ⟨_, _, _, hp⟩
  all_goals cases h

/-- A phase that fetches ends in the exception where the fetch does (R73, R77). -/
theorem phaseStep_of_trapped {b : Block} {f : ProgFetch} {s : State} (h : phaseFetch b = some f)
    (hf : fetchNext b.core = .trapped s) : phaseStep b = .next (atEnd s) := by
  rcases phase_of_phaseFetch h with hp | ⟨d, got, first, hp⟩ <;> simp [phaseStep, hp, hf]

/-- A phase that fetches stops where the fetch does. -/
theorem phaseStep_of_stuck {b : Block} {f : ProgFetch} {r : Fault} (h : phaseFetch b = some f)
    (hf : fetchNext b.core = .stuck r) : phaseStep b = .fault r := by
  rcases phase_of_phaseFetch h with hp | ⟨d, got, first, hp⟩ <;> simp [phaseStep, hp, hf]

theorem toBoundary_execute (fuel : Nat) (d : DecodedOp) (first second : Word) (s : State) :
    toBoundary (fuel + 1) { phase := .execute d first second, core := s } =
      mapNext atEnd (executePhase d first second s) :=
  toBoundary_of_last rfl fuel

/-- The fetch of the last operand and EXECUTE, for an instruction `mk` makes of that operand (R57, R77). -/
theorem toBoundary_lastOperand (fuel : Nat) {d : DecodedOp} {got : Nat} {first : Word} {mk : Word → Instr}
    (hlast : got + 1 = operandCount d)
    (hexec : ∀ w s, executePhase d (if got = 0 then w else first) w s = exec (mk w) s) (s : State) :
    toBoundary (fuel + 2) { phase := .fetchOperand d got first, core := s } = mapNext atEnd (fetchOne mk s).outcome := by
  unfold fetchOne
  rcases fetchNext_cases s with ⟨w, -, -, hf⟩ | ⟨-, hf⟩ | ⟨-, hf⟩ <;> rw [hf]
  · rw [toBoundary_of_inner (b' := { phase := .execute d (if got = 0 then w else first) w, core := advanceIp s })
      (by simp [phaseStep, hf, afterOperand, hlast]) rfl, toBoundary_execute, hexec]
    rfl
  · exact toBoundary_of_last (o := .next _) (phaseStep_of_trapped rfl hf) _
  · exact toBoundary_of_last (o := .fault _) (phaseStep_of_stuck rfl hf) _

/-- Both operand fetches and EXECUTE, for an instruction `mk` makes of the two operands (R57, R77). -/
theorem toBoundary_twoOperands (fuel : Nat) {d : DecodedOp} {mk : Word → Word → Instr} (hcount : operandCount d = 2)
    (hexec : ∀ a b s, executePhase d a b s = exec (mk a b) s) (s : State) :
    toBoundary (fuel + 3) { phase := .fetchOperand d 0 0, core := s } = mapNext atEnd (fetchTwo mk s).outcome := by
  unfold fetchTwo
  rcases fetchNext_cases s with ⟨w, -, -, hf⟩ | ⟨-, hf⟩ | ⟨-, hf⟩ <;> rw [hf]
  · rw [toBoundary_of_inner (b' := { phase := .fetchOperand d 1 w, core := advanceIp s })
      (by simp [phaseStep, hf, afterOperand, hcount]) rfl]
    exact toBoundary_lastOperand fuel hcount.symm (hexec w) (advanceIp s)
  · exact toBoundary_of_last (o := .next _) (phaseStep_of_trapped rfl hf) _
  · exact toBoundary_of_last (o := .fault _) (phaseStep_of_stuck rfl hf) _

/-- The phases after DECODE are the operand fetches and the effect (R56, R57, R75). -/
theorem toBoundary_afterDecode (fuel : Nat) (d : DecodedOp) (s : State) :
    toBoundary (fuel + 3) (afterDecode d s) = mapNext atEnd (fetchOperands d s).outcome := by
  cases d with
  | load => exact toBoundary_twoOperands fuel rfl (fun _ _ _ => rfl) s
  | add => exact toBoundary_twoOperands fuel rfl (fun _ _ _ => rfl) s
  | subtract => exact toBoundary_twoOperands fuel rfl (fun _ _ _ => rfl) s
  | print => exact toBoundary_lastOperand (fuel + 1) rfl (fun _ _ => rfl) s
  | halt => exact toBoundary_execute (fuel + 2) .halt 0 0 s
  | unknown w => exact toBoundary_execute (fuel + 2) (.unknown w) 0 0 s

theorem atBoundary_afterDecode (d : DecodedOp) (s : State) : atBoundary (afterDecode d s) = false := by
  unfold afterDecode
  split <;> rfl

/-- All phases of a step are its run cycle and the effect (R72 to R77). -/
theorem stepByPhases_eq_runCycle (s : State) : stepByPhases s = mapNext atEnd (runCycle s).outcome := by
  unfold stepByPhases runCycle
  by_cases hend : progLen s ≤ s.ip + 1
  · rw [if_pos hend]
    exact toBoundary_of_last (by simp [phaseStep, hend, Begun.outcome, mapNext]) _
  · rw [if_neg hend, toBoundary_of_inner (b' := { phase := .fetchOp, core := s }) (by simp [phaseStep, hend]) rfl]
    rcases fetchNext_cases s with ⟨w, -, -, hf⟩ | ⟨-, hf⟩ | ⟨-, hf⟩ <;> rw [hf]
    · rw [toBoundary_of_inner (b' := { phase := .decode w, core := advanceIp s }) (by simp [phaseStep, hf]) rfl,
        toBoundary_of_inner rfl (atBoundary_afterDecode _ _)]
      exact toBoundary_afterDecode 0 _ (advanceIp s)
    · exact toBoundary_of_last (o := .next _) (phaseStep_of_trapped rfl hf) _
    · exact toBoundary_of_last (o := .fault _) (phaseStep_of_stuck rfl hf) _

/-- Settles O24: in Running without DEBUG the start of a step is the run cycle, which the phases spell out. -/
theorem phasesRefineStep : Obligations.PhasesRefineStep := by
  intro s hr hdebug
  have hbegin : beginStep s = runCycle s := by simp [beginStep, hr, hdebug]
  rw [stepByPhases_eq_runCycle, step_eq_outcome, hbegin]

end Sys2Proof.Machine
end

section
/-! The program port (R73 to R75, R140): one fetch of a phase, and all the fetches of a step. -/

namespace Sys2Proof.Machine

/-! ### One fetch -/

/-- The word at an index of the program is there exactly below `N` (R17, R38). -/
theorem isSome_memRead_iff {s : State} {i : Int} (hi : 0 ≤ i) : (memRead s i).isSome ↔ i < progLen s := by
  rw [memRead, if_neg (by omega), isSome_getElem?, progLen]
  omega

theorem progLen_congr {s t : State} (h : t.program = s.program) : progLen t = progLen s := by
  rw [progLen, h, progLen]

/-- A phase that fetches makes the fetch of its core's state. -/
theorem eq_portFetch_of_phaseFetch {b : Block} {f : ProgFetch} (h : phaseFetch b = some f) : f = portFetch b.core := by
  rcases phase_of_phaseFetch h with hp | ⟨d, got, first, hp⟩ <;>
    exact Option.some.inj (h.symm.trans (by rw [phaseFetch, hp]))

/-- Settles O52: `FetchNext()` answers what the port shows, and the phase takes its answer. -/
theorem fetchPhaseTakesThePortWord : Obligations.FetchPhaseTakesThePortWord := by
  intro b f hlow hfetch
  obtain rfl := eq_portFetch_of_phaseFetch hfetch
  have hnext := fetchNext_portFetch hlow
  refine ⟨rfl, if_neg (by rw [progAddr_eq]; omega), portFetch_isSome_iff hlow, fun w hw => ?_, fun hnone => ?_⟩
  · rw [hw] at hnext
    exact ⟨fun hp => by simp [phaseStep, hp, hnext, advanceIp], fun d got first hp => by
      simp [phaseStep, hp, hnext, advanceIp]⟩
  · rw [hnone] at hnext
    exact phaseStep_of_trapped hfetch hnext

/-! ### The fetches between two values of the IP -/

/-- The fetches that bring the IP of a state to `i`: one at each index after the IP, up to `i`. -/
def fetchesTo (s : State) (i : Int) : List ProgFetch :=
  (List.range (i - s.ip).toNat).map (fun j : Nat => { addr := s.ip + 1 + j, data := memRead s (s.ip + 1 + j) })

theorem fetchesTo_self (s : State) : fetchesTo s s.ip = [] := by
  simp [fetchesTo]

theorem fetchesTo_next (s : State) : fetchesTo s (s.ip + 1) = [portFetch s] := by
  simp [fetchesTo, portFetch]

/-- The fetches up to `i` are those up to a state on the way and those from there (R75). -/
theorem fetchesTo_append {s t : State} {i : Int} (hprogram : t.program = s.program) (hst : s.ip ≤ t.ip)
    (hti : t.ip ≤ i) : fetchesTo s i = fetchesTo s t.ip ++ fetchesTo t i := by
  have hsum : (i - s.ip).toNat = (t.ip - s.ip).toNat + (i - t.ip).toNat := by omega
  have hindex (j : Nat) : s.ip + 1 + ((t.ip - s.ip).toNat + j : Nat) = t.ip + 1 + j := by omega
  simp only [fetchesTo, hsum, List.range_add, List.map_append, List.map_map, Function.comp_def, hindex,
    memRead_congr hprogram]

theorem map_addr_fetchesTo (s : State) (i : Int) : (fetchesTo s i).map (fun f => f.addr) =
    (List.range (i - s.ip).toNat).map (fun j : Nat => s.ip + 1 + (j : Int)) := by
  rw [fetchesTo, List.map_map]
  rfl

/-- The data of each fetch is the program's word, valid below `N` (R140). -/
theorem data_of_mem_fetchesTo {s : State} {i : Int} {f : ProgFetch} (hlow : -1 ≤ s.ip) (hf : f ∈ fetchesTo s i) :
    f.data = memRead s f.addr ∧ (f.data.isSome ↔ f.addr < progLen s) := by
  obtain ⟨j, -, rfl⟩ := List.mem_map.1 hf
  exact ⟨rfl, isSome_memRead_iff (by omega)⟩

/-- A word of the program after the IP is one of the words ahead (R24). -/
theorem memRead_eq_ahead {s : State} (hlow : -1 ≤ s.ip) (j : Nat) : memRead s (s.ip + 1 + j) = s.ahead[j]? := by
  rw [memRead, if_neg (by omega), State.ahead, List.getElem?_drop]
  congr 1
  omega

/-- Reading a list by its first `n` indices takes its first `n` entries. -/
theorem filterMap_getElem?_range {α : Type} (l : List α) (n : Nat) :
    (List.range n).filterMap (fun j => l[j]?) = l.take n := by
  induction n with
  | zero => rfl
  | succ n ih =>
    rw [List.range_succ, List.filterMap_append, ih, List.take_add_one]
    cases h : l[n]? <;> simp [h]

/-- The valid data of the fetches are the words ahead (R74, R75). -/
theorem filterMap_data_fetchesTo {s : State} (hlow : -1 ≤ s.ip) (i : Int) :
    (fetchesTo s i).filterMap (fun f => f.data) = s.ahead.take (i - s.ip).toNat := by
  rw [fetchesTo, List.filterMap_map, ← filterMap_getElem?_range]
  congr 1
  funext j
  exact memRead_eq_ahead hlow j

/-! ### The fetches of a step -/

/-- The block `b'` is reached from `b` with just these fetches, and the program is the same. -/
structure Fetched (b b' : Block) (fs : List ProgFetch) : Prop where
  program : b'.core.program = b.core.program
  ipLe    : b.core.ip ≤ b'.core.ip
  fetches : fs = fetchesTo b.core b'.core.ip

theorem Fetched.none {b b' : Block} (hprogram : b'.core.program = b.core.program) (hip : b'.core.ip = b.core.ip) :
    Fetched b b' [] :=
  ⟨hprogram, hip.ge, by rw [hip, fetchesTo_self]⟩

theorem Fetched.one {b b' : Block} (hprogram : b'.core.program = b.core.program) (hip : b'.core.ip = b.core.ip + 1) :
    Fetched b b' [portFetch b.core] :=
  ⟨hprogram, by omega, by rw [hip, fetchesTo_next]⟩

theorem Fetched.append {b b' b'' : Block} {fs fs' : List ProgFetch} (h : Fetched b b' fs) (h' : Fetched b' b'' fs') :
    Fetched b b'' (fs ++ fs') where
  program := h'.program.trans h.program
  ipLe := h.ipLe.trans h'.ipLe
  fetches := by rw [h.fetches, h'.fetches, ← fetchesTo_append h.program h.ipLe h'.ipLe]

/-- No effect changes the program (R39). -/
theorem exec_program {i : Instr} {s t : State} (h : exec i s = .next t) : t.program = s.program := by
  cases i <;> cases h <;> rfl

/-- EXECUTE is an instruction's effect or the unknown-opcode action (R77). -/
theorem executePhase_cases {d : DecodedOp} {first second : Word} {s t : State}
    (h : executePhase d first second s = .next t) : (∃ i, exec i s = .next t) ∨ ∃ w, execUnknown w s = .next t := by
  cases d with
  | unknown w => exact .inr ⟨w, h⟩
  | load => exact .inl ⟨.load (u32 first) second, h⟩
  | add => exact .inl ⟨.add (u32 first) (u32 second), h⟩
  | subtract => exact .inl ⟨.subtract (u32 first) (u32 second), h⟩
  | print => exact .inl ⟨.print (u32 first), h⟩
  | halt => exact .inl ⟨.halt, h⟩

theorem executePhase_program {d : DecodedOp} {first second : Word} {s t : State}
    (h : executePhase d first second s = .next t) : t.program = s.program := by
  rcases executePhase_cases h with ⟨i, hexec⟩ | ⟨w, hunknown⟩
  · exact exec_program hexec
  · rcases execUnknown_cases hunknown with ⟨-, rfl⟩ | ⟨-, rfl⟩ <;> rfl

theorem afterDecode_core (d : DecodedOp) (s : State) : (afterDecode d s).core = s := by
  unfold afterDecode
  split <;> rfl

theorem afterOperand_core (d : DecodedOp) (got : Nat) (first w : Word) (s : State) :
    (afterOperand d got first w s).core = s := by
  unfold afterOperand
  dsimp only
  split <;> rfl

/-- A phase moves the IP by its own fetch, and by nothing else (R25, R77). -/
theorem phaseStep_fetched {b b' : Block} (h : phaseStep b = .next b') : Fetched b b' (phaseFetch b).toList := by
  obtain ⟨phase, s⟩ := b
  cases phase with
  | check =>
    simp only [phaseStep] at h
    split at h <;> cases h <;> exact .none rfl rfl
  | fetchOp =>
    rcases fetchNext_cases s with ⟨w, -, -, hf⟩ | ⟨-, hf⟩ | ⟨-, hf⟩ <;> simp only [phaseStep, hf] at h <;> cases h
    · exact .one rfl rfl
    · exact .one rfl rfl
  | decode op =>
    cases h
    exact .none (by rw [afterDecode_core]) (by rw [afterDecode_core])
  | fetchOperand d got first =>
    rcases fetchNext_cases s with ⟨w, -, -, hf⟩ | ⟨-, hf⟩ | ⟨-, hf⟩ <;> simp only [phaseStep, hf] at h <;> cases h
    · exact .one (by rw [afterOperand_core]; rfl) (by rw [afterOperand_core]; rfl)
    · exact .one rfl rfl
  | execute d first second =>
    obtain ⟨t, hexec, rfl⟩ := mapNext_eq_next h
    exact .none (executePhase_program hexec) (executePhase_ip hexec)
  | stopped => cases h

/-- The phases up to the end of a step fetch every word that the IP passes, each once and in order (R75, R77). -/
theorem toBoundary_fetched {fuel : Nat} {b b' : Block} (h : toBoundary fuel b = .next b') :
    Fetched b b' (fetchesToBoundary fuel b) := by
  induction fuel generalizing b with
  | zero => cases h; exact .none rfl rfl
  | succ fuel ih =>
    rw [toBoundary] at h
    rw [fetchesToBoundary_succ]
    cases hphase : phaseStep b with
    | next c =>
      have hfetched := phaseStep_fetched hphase
      rw [hphase] at h
      dsimp only at h ⊢
      split at h
      · next hb => cases h; rwa [if_pos hb, List.append_nil]
      · next hb => rw [if_neg hb]; exact hfetched.append (ih h)
    | fault r => simp [hphase] at h
    | refused r => simp [hphase] at h

/-- The fetches of a step are those that bring the IP to where the step leaves it. -/
theorem stepFetches_of_step {s t : State} (h : step s = .next t) : stepFetches s = fetchesTo s t.ip := by
  obtain ⟨hr, hdebug, -⟩ := enabled_of_step h
  have hphases : stepByPhases s = .next (atEnd t) := by rw [phasesRefineStep s hr hdebug, h, mapNext]
  exact (toBoundary_fetched hphases).fetches

/-- A step over a decoded instruction moves the IP past its words (R27). -/
theorem step_ip_of_decode_ok {s t : State} {i : Instr} {rest : List Word} (h : step s = .next t)
    (hd : decode s.cfg.opc s.ahead = .ok (i, rest)) : t.ip = s.ip + i.length := by
  rw [step_of_decode_ok (enabled_of_step h) hd] at h
  exact exec_ip h

/-- Settles O53: the fetches of the step bring the IP from the old to the new one; a decoded instruction's words are the
first of those ahead. -/
theorem programPortShowsEveryFetch : Obligations.ProgramPortShowsEveryFetch := by
  intro s t h
  obtain ⟨hs, hto⟩ := step_inversion h
  have hfetches : (ports s t).fetches = fetchesTo s t.ip := stepFetches_of_step h
  have hlen : ((ports s t).progLen : Int) = progLen s := progLen_congr hto.sameLaunch.program
  rw [hfetches, hlen]
  refine ⟨map_addr_fetchesTo s t.ip, fun f => data_of_mem_fetchesTo hs.ipLow,
    filterMap_data_fetchesTo hs.ipLow t.ip, fun i rest hd => ?_⟩
  have hcount : (t.ip - s.ip).toNat = (encode s.cfg.opc i).length := by
    rw [step_ip_of_decode_ok h hd, encode_length]
    omega
  rw [filterMap_data_fetchesTo hs.ipLow, hcount, eq_encode_of_decode_ok hd, List.take_left]

end Sys2Proof.Machine
end

section
/-! Runs (R70, R80, R81, R128): the steps from a state, what each showed at the ports, and where they lead. -/

namespace Sys2Proof.Machine

variable {s t : State} {ps : List Ports}

/-! ### One step of a run -/

/-- A step that stays Running consumed a whole instruction, or an unknown word, of the program (R80). -/
theorem StepsTo.ip_lt_progLen (hs : s.Enabled) (h : StepsTo s t) (hr : t.runState = .running) : t.ip < progLen t := by
  cases h with
  | assigns hd => exact ip_lt_of_decode_ok hs.ipLow hd
  | prints hd => exact ip_lt_of_decode_ok hs.ipLow hd
  | ignores hd => exact ip_lt_of_ahead hs.ipLow (by simp [hd])
  | halts => cases hr
  | exhausts => cases hr
  | truncated => cases hr
  | refuses => cases hr

/-- After a step the next one is enabled or the state is terminal (R71). -/
theorem StepsTo.enabled_or_terminal (hs : s.Enabled) (h : StepsTo s t) : t.Enabled ∨ t.terminal := by
  by_cases hr : t.runState = .running
  · exact .inl ⟨hr, by rw [h.sameLaunch.cfg, hs.noDebug], hs.ipLow.trans (h.ip_le hs)⟩
  · exact .inr hr

/-- So it is in every state of a launch. -/
theorem State.Inv.enabled_or_terminal (h : s.Inv) : s.Enabled ∨ s.terminal := by
  by_cases hr : s.runState = .running
  · obtain ⟨-, hdebug⟩ := h.cfgOk
    exact .inl ⟨hr, hdebug, h.ipLow⟩
  · exact .inr hr

theorem ports_out_of_step (h : step s = .next t) : t.out = s.out ++ (ports s t).outEvent.toList := by
  obtain ⟨-, hto⟩ := step_inversion h
  rcases hto.out_cases with hout | ⟨e, hout⟩ <;> simp [ports, hout]

theorem ports_logs_of_step (h : step s = .next t) :
    t.logs = s.logs ++ if (ports s t).logValid then [.exhausted] else [] := by
  obtain ⟨hs, hto⟩ := step_inversion h
  rcases hto.logs_cases hs.running with ⟨hlogs, -⟩ | ⟨hlogs, -⟩ <;> simp [ports, hlogs]

/-! ### The steps of a run -/

/-- Some steps lead from one state to another, and the ports show `ps` in them. -/
inductive RunsTo : State → List Ports → State → Prop
  | stay {s : State} : RunsTo s [] s
  | next {s u t : State} {ps : List Ports} (h : step s = .next u) (hrun : RunsTo u ps t) :
      RunsTo s (ports s u :: ps) t

/-- The run loop takes the steps that the port trace shows; where the run is not over it has taken all it may (R70). -/
theorem exists_runsTo (hs : s.Enabled ∨ s.terminal) (k : Nat) : ∃ t, runLoop k s = .next t ∧
    RunsTo s (portTrace k s) t ∧ (t.runState = .running → (portTrace k s).length = k) := by
  induction k generalizing s with
  | zero => exact ⟨s, rfl, .stay, fun _ => rfl⟩
  | succ k ih =>
    rcases hs with hs | hs
    · obtain ⟨u, hstep, hto⟩ := exists_stepsTo hs
      obtain ⟨t, hloop, hrun, hlen⟩ := ih (hto.enabled_or_terminal hs)
      rw [runLoop_running hs.running hstep, portTrace_next hstep]
      exact ⟨t, hloop, .next hstep hrun, fun hr => congrArg Nat.succ (hlen hr)⟩
    · rw [runLoop_terminal hs, portTrace_terminal hs]
      exact ⟨s, rfl, .stay, fun hr => absurd hr hs⟩

theorem RunsTo.program (h : RunsTo s ps t) : t.program = s.program := by
  induction h with
  | stay => rfl
  | next hstep _ ih =>
    obtain ⟨-, hto⟩ := step_inversion hstep
    exact ih.trans hto.sameLaunch.program

theorem RunsTo.inv (h : RunsTo s ps t) (hinv : s.Inv) : t.Inv := by
  induction h with
  | stay => exact hinv
  | next hstep _ ih => exact ih (stepKeepsInvariant _ _ hinv hstep)

theorem RunsTo.ip_le (h : RunsTo s ps t) : s.ip ≤ t.ip := by
  induction h with
  | stay => exact le_rfl
  | next hstep _ ih =>
    obtain ⟨hs, hto⟩ := step_inversion hstep
    exact (hto.ip_le hs).trans ih

/-- A run that is still Running was so all along. -/
theorem RunsTo.running (h : RunsTo s ps t) (hr : t.runState = .running) : s.runState = .running := by
  cases h with
  | stay => exact hr
  | next hstep => exact (enabled_of_step hstep).running

/-- While it is Running each step consumes a word (R80). -/
theorem RunsTo.ip_add_length_le (h : RunsTo s ps t) (hr : t.runState = .running) : s.ip + ps.length ≤ t.ip := by
  induction h with
  | stay => simp
  | next hstep hrun ih =>
    obtain ⟨hs, hto⟩ := step_inversion hstep
    have hmove := hto.ip_lt hs (by simp [hrun.running hr])
    have hrest := ih hr
    rw [List.length_cons]
    omega

/-- A run that is still Running after a step has words of the program only behind it (R80). -/
theorem RunsTo.ip_lt_progLen (h : RunsTo s ps t) (hr : t.runState = .running) : ps = [] ∨ t.ip < progLen t := by
  induction h with
  | stay => exact .inl rfl
  | next hstep hrun ih =>
    right
    rcases ih hr with rfl | hin
    · obtain ⟨hs, hto⟩ := step_inversion hstep
      cases hrun
      exact hto.ip_lt_progLen hs hr
    · exact hin

/-- Settles O49: the run loop's steps, each of which keeps the invariant and consumes a word. -/
theorem runConsumesAWordPerStep : Obligations.RunConsumesAWordPerStep := by
  intro k s hinv
  obtain ⟨t, hloop, hrun, hlen⟩ := exists_runsTo hinv.enabled_or_terminal k
  refine ⟨t, hloop, hrun.inv hinv, hrun.program, fun hr => ?_⟩
  have hip := hrun.ip_add_length_le hr
  rwa [hlen hr] at hip

/-- Settles O50: still Running, the run would have consumed every word of the program and more. -/
theorem everyRunTerminates : Obligations.EveryRunTerminates := by
  intro s k hinv hk
  obtain ⟨t, hloop, htinv, hprogram, hip⟩ := runConsumesAWordPerStep k s hinv
  refine ⟨t, hloop, fun hr => ?_, htinv⟩
  have hinside := htinv.ipInside (by simp [hr])
  have hlen := progLen_congr hprogram
  have hconsumed := hip hr
  omega

/-! ### The host's run (R128) -/

theorem hostRun_of_running (hr : s.runState = .running) : hostRun s = runLoop (runFuel s) s := by
  simp [hostRun, hr]

theorem hostRun_of_terminal (h : s.terminal) : hostRun s = .refused .secondRun := by
  unfold hostRun
  split
  · contradiction
  · rfl

/-- From an enabled state the host's run comes to a terminal one (R80), with the steps that the port trace shows. -/
theorem exists_hostRun (hs : s.Enabled) : ∃ t, hostRun s = .next t ∧ t.terminal ∧
    RunsTo s (portTrace (runFuel s) s) t := by
  obtain ⟨t, hloop, hrun, hlen⟩ := exists_runsTo (.inl hs) (runFuel s)
  refine ⟨t, (hostRun_of_running hs.running).trans hloop, fun hr => ?_, hrun⟩
  have hfuel : runFuel s = (progLen s - s.ip).toNat + 1 := rfl
  have hsteps := hlen hr
  have hip := hrun.ip_add_length_le hr
  have hin : t.ip < progLen t := by
    refine (hrun.ip_lt_progLen hr).resolve_left fun hnone => ?_
    rw [hnone, hfuel] at hsteps
    cases hsteps
  have hprogram := progLen_congr hrun.program
  omega

/-- A run that answers a state began in an enabled one. -/
theorem enabled_of_hostRun (h : hostRun s = .next t) : s.Enabled := by
  by_cases hr : s.runState = .running
  · rw [hostRun_of_running hr, runFuel, runLoop, hr] at h
    cases hstep : step s with
    | next u => exact enabled_of_step hstep
    | fault f => simp [hstep] at h
    | refused r => simp [hstep] at h
  · simp [hostRun_of_terminal hr] at h

/-- Settles O11: a run that answers began enabled, and from there it comes to a terminal state. -/
theorem runReturnsTerminal : Obligations.RunReturnsTerminal := by
  refine fun s => ⟨hostRun_of_terminal, fun t h => ?_, fun hs => ?_⟩
  · obtain ⟨u, hu, hterminal, -⟩ := exists_hostRun (enabled_of_hostRun h)
    cases h.symm.trans hu
    exact hterminal
  · obtain ⟨t, h, -⟩ := exists_hostRun hs
    exact ⟨t, h⟩

/-! ### What the ports show in a run (R140) -/

/-- The output stream gains the events shown (R81). -/
theorem RunsTo.out (h : RunsTo s ps t) : t.out = s.out ++ ps.filterMap (fun p => p.outEvent) := by
  induction h with
  | stay => simp
  | @next s u t ps hstep _ ih =>
    rw [ih, ports_out_of_step hstep, List.append_assoc, List.filterMap_cons]
    cases (ports s u).outEvent <;> rfl

/-- The log stream gains an event for each step that shows one (R81). -/
theorem RunsTo.logs (h : RunsTo s ps t) :
    t.logs = s.logs ++ (ps.filter (fun p => p.logValid)).map (fun _ => LogEvent.exhausted) := by
  induction h with
  | stay => simp
  | @next s u t ps hstep _ ih =>
    rw [ih, ports_logs_of_step hstep, List.append_assoc, List.filter_cons]
    cases (ports s u).logValid <;> rfl

/-- The fetches shown bring the IP from where it was to where it is (R75). -/
theorem RunsTo.fetches (h : RunsTo s ps t) : ps.flatMap (fun p => p.fetches) = fetchesTo s t.ip := by
  induction h with
  | stay => exact (fetchesTo_self _).symm
  | @next s u t ps hstep hrun ih =>
    obtain ⟨hs, hto⟩ := step_inversion hstep
    have hfetches : (ports s u).fetches = fetchesTo s u.ip := stepFetches_of_step hstep
    rw [List.flatMap_cons, hfetches, ih, ← fetchesTo_append hto.sameLaunch.program (hto.ip_le hs) hrun.ip_le]

/-- The last step shows the run state it left; without a step it is the old one. -/
theorem RunsTo.last_runState (h : RunsTo s ps t) :
    (ps.getLast?.map (fun p => p.runState)).getD s.runState = t.runState := by
  induction h with
  | stay => rfl
  | @next s u t ps hstep _ ih =>
    rw [← ih, List.getLast?_cons]
    cases ps.getLast? <;> rfl

/-- A run that ends in another run state shows how in its last step. -/
theorem RunsTo.getLast?_runState (h : RunsTo s ps t) (hne : t.runState ≠ s.runState) :
    ps.getLast?.map (fun p => p.runState) = some t.runState := by
  have hlast := h.last_runState
  cases hps : ps.getLast? with
  | none => rw [hps] at hlast; exact absurd hlast.symm hne
  | some p => rw [hps] at hlast; exact congrArg some hlast

theorem onStart_true (s : State) : onStart true s = hostRun s := rfl

/-- Settles O54: the host's run, with each port's account of its steps. -/
theorem startRunsTheCore : Obligations.StartRunsTheCore := by
  refine fun s => ⟨⟨rfl, rfl⟩, fun h => ⟨hostRun_of_terminal h, portTrace_terminal h _⟩, fun hs => ?_⟩
  obtain ⟨t, hhost, hterminal, hrun⟩ := exists_hostRun hs
  have hsteps : (runPorts true s).steps = portTrace (runFuel s) s := rfl
  rw [onStart_true, hsteps, hrun.fetches]
  exact ⟨t, hhost, rfl, hterminal, hrun.out, hrun.logs, map_addr_fetchesTo s t.ip,
    hrun.getLast?_runState (by rwa [hs.running])⟩

end Sys2Proof.Machine
end

section
/-! Loaded immediates through the ALU to the output (R87, R95): widened words are far from the ends of the 64-bit range,
so their sums and differences are exact. -/

namespace Sys2Proof.Machine

/-! ### The ALU on widened words (R95) -/

/-- A result that the 64 bits hold is not changed by wrapping (R91). -/
theorem wrap64_toInt_of_mem_range {n : Int} (hlow : -2 ^ 63 ≤ n) (hhigh : n < 2 ^ 63) : (wrap64 n).toInt = n := by
  rw [wrap64_toInt]
  exact Int.bmod_eq_of_le (by omega) (by omega)

theorem word_toInt_mem_range (w : Word) : -2 ^ 31 ≤ w.toInt ∧ w.toInt < 2 ^ 31 :=
  ⟨BitVec.le_toInt w, BitVec.toInt_lt⟩

theorem alu_add_sext64 (a b : Word) : (alu .add (sext64 a) (sext64 b)).toInt = a.toInt + b.toInt := by
  have ha := word_toInt_mem_range a
  have hb := word_toInt_mem_range b
  rw [alu, sext64_toInt, sext64_toInt]
  exact wrap64_toInt_of_mem_range (by omega) (by omega)

theorem alu_subtract_sext64 (a b : Word) : (alu .subtract (sext64 a) (sext64 b)).toInt = a.toInt - b.toInt := by
  have ha := word_toInt_mem_range a
  have hb := word_toInt_mem_range b
  rw [alu, sext64_toInt, sext64_toInt]
  exact wrap64_toInt_of_mem_range (by omega) (by omega)

/-! ### The chain of instructions -/

/-- Two Loads leave what the second one wrote over the first, and emit nothing (R21, R85). -/
theorem reads_after_two_loads {r1 r2 : RegKey} {a b : Word} {s0 s1 s2 : State}
    (h1 : exec (.load r1 a) s0 = .next s1) (h2 : exec (.load r2 b) s1 = .next s2) :
    readReg s2 r1 = sext64 (if r1 = r2 then b else a) ∧ readReg s2 r2 = sext64 b ∧ s2.out = s0.out := by
  cases h1
  cases h2
  refine ⟨?_, readReg_writeReg_self _ r2 _, rfl⟩
  rw [readReg_writeReg, readReg_writeReg_self, apply_ite sext64]

/-- A Print of the register that an instruction has assigned emits the value assigned (R21, R96). -/
theorem out_of_assignment_print {i : Instr} {k : RegKey} {v : Value} {s t u : State}
    (hassign : assignment i s = some (k, v)) (hexec : exec i s = .next t) (hprint : exec (.print k) t = .next u) :
    u.out = s.out ++ [.value v] := by
  rw [exec_of_assignment hassign] at hexec
  cases hexec
  rw [exec_print, readReg_writeReg_self] at hprint
  cases hprint
  rfl

/-- Settles O40: the Print emits the ALU's result on two widened words, in one register the second word twice. -/
theorem loadedValuesAddUp : Obligations.LoadedValuesAddUp := by
  intro r1 r2 a b s0 s1 s2 s3 s4 t3 t4 hload1 hload2 hadd hprintSum hsubtract hprintDifference
  obtain ⟨hdst, hsrc, hout⟩ := reads_after_two_loads hload1 hload2
  have hsum := out_of_assignment_print rfl hadd hprintSum
  have hdifference := out_of_assignment_print rfl hsubtract hprintDifference
  rw [hdst, hsrc, hout] at hsum hdifference
  refine ⟨_, _, hsum, hdifference, ?_⟩
  rw [alu_add_sext64, alu_subtract_sext64]
  by_cases hr : r1 = r2
  · simp only [if_pos hr, two_mul, sub_self, and_self]
  · simp only [if_neg hr, and_self]

end Sys2Proof.Machine
end

section
/-! The ALU's result among the 64-bit signed values (R91, D6). -/

namespace Sys2Proof.Machine

/-- Of the integers that 64 bits hold, `wrap(n)` is the one congruent to `n` modulo `2^64` (R91). -/
theorem wrap64_toInt_eq_iff_dvd {n m : Int} (hlow : -2 ^ 63 ≤ m) (hhigh : m < 2 ^ 63) :
    (wrap64 n).toInt = m ↔ (2 : Int) ^ 64 ∣ m - n := by
  have hlow' : -(((2 ^ 64 : Nat) : Int) / 2) ≤ m := by omega
  have hhigh' : m < (((2 ^ 64 : Nat) : Int) + 1) / 2 := by omega
  calc (wrap64 n).toInt = m
    _ ↔ n.bmod (2 ^ 64) = m := by rw [wrap64_toInt]
    _ ↔ ((2 ^ 64 : Nat) : Int) ∣ m - n := by
      rw [Int.bmod_eq_iff (by norm_num), and_iff_right hlow', and_iff_right hhigh']
    _ ↔ (2 : Int) ^ 64 ∣ m - n := by rw [Nat.cast_pow, Nat.cast_ofNat]

/-- Settles O28: both operations wrap their exact result, and the wrapped result is the sum or difference of the words. -/
theorem aluWrapsTheExactResult : Obligations.AluWrapsTheExactResult :=
  fun a b => ⟨fun _ hlow hhigh => ⟨wrap64_toInt_eq_iff_dvd hlow hhigh, wrap64_toInt_eq_iff_dvd hlow hhigh⟩,
    alu_add a b, alu_subtract a b⟩

end Sys2Proof.Machine
end

section
/-! Output (R96 to R98, R100): what Print does in every state, the one event of a step, and the halt notice's line. -/

namespace Sys2Proof.Machine

/-! ### The events (R96 to R98) -/

/-- Settles O32: the one event that Print appends, and its frame. -/
theorem execPrintResult : Obligations.ExecPrintResult := by
  intro reg s
  exact ⟨_, exec_print reg s, rfl, ⟨emit_readReg s _, rfl⟩, sameRest_emit s _, rfl, rfl⟩

/-- A machine still in Running has come to neither of the ends that emit or log (R102, R72). -/
theorem not_ended_of_running {t : State} (hr : t.runState = .running) :
    t.runState ≠ .halted ∧ t.runState ≠ .exhausted := by
  rw [hr]
  exact ⟨nofun, nofun⟩

/-- Settles O41: of all that a step can come to, Print, Halt and exhaustion bring one event each, the rest none. -/
theorem oneOutputEventPerStep : Obligations.OneOutputEventPerStep := by
  intro s t h
  obtain ⟨hs, hto⟩ := step_inversion h
  cases hto with
  | exhausts ha => exact .inr (.inl ⟨rfl, rfl, rfl, ha⟩)
  | prints hd => exact .inr (.inr (.inl ⟨_, _, hd, rfl, rfl, hs.running⟩))
  | halts hd => exact .inr (.inr (.inr ⟨_, hd, rfl, rfl, rfl⟩))
  | assigns => exact .inl ⟨rfl, rfl, not_ended_of_running hs.running⟩
  | ignores => exact .inl ⟨rfl, rfl, not_ended_of_running hs.running⟩
  | truncated => exact .inl ⟨rfl, rfl, nofun, nofun⟩
  | refuses => exact .inl ⟨rfl, rfl, nofun, nofun⟩

/-! ### The halt notice's line (R100) -/

/-- The notice's characters spell the text of R100. -/
theorem haltNoticeText_eq : haltNoticeText = "halting, please wait".toList := rfl

/-- Settles O44: the notice's text and one newline. -/
theorem haltNoticeLine : Obligations.HaltNoticeLine := by
  rw [Obligations.HaltNoticeLine, renderOutEvent, haltNoticeText_eq]

end Sys2Proof.Machine
end

section
/-! Halt (R102), and a step whose next word is no opcode, under either policy (R103, R104, R109). -/

namespace Sys2Proof.Machine

variable {s t : State} {w : Word} {rest : List Word}

/-! ### Halt (R102) -/

/-- The entry to Halted after a change that keeps the rest. -/
theorem State.SameRest.then_enterHalted (h : s.SameRest t) : s.SameRest (enterHalted t) :=
  ⟨h.fault, h.logs, h.stack, h.sp, h.cfg, h.program, h.words⟩

/-- Settles O33: the notice is emitted, then Halted is entered; the frame is that of the two. -/
theorem execHaltResult : Obligations.ExecHaltResult := by
  intro s
  exact ⟨_, exec_halt s, rfl, rfl, ⟨emit_readReg s .haltNotice, rfl⟩,
    (sameRest_emit s .haltNotice).then_enterHalted, rfl⟩

/-! ### An unknown opcode word (R103, R104) -/

theorem execUnknown_of_ignore (hp : s.cfg.policy = .ignore) (w : Word) : execUnknown w s = .next s := by
  rw [execUnknown, hp]

theorem execUnknown_of_fault (hp : s.cfg.policy = .fault) (w : Word) :
    execUnknown w s = .next (raiseUnknownOpcode w s) := by
  rw [execUnknown, hp]

/-- A next word that is none of the five takes the unknown-opcode path, with the IP at the word (R63, R74). -/
theorem step_of_ahead_unknown (hs : s.Enabled) (ha : s.ahead = w :: rest) (hw : w ∉ s.cfg.opc.values) :
    step s = execUnknown w (s.atIp (s.ip + 1)) := by
  have hd : decode s.cfg.opc s.ahead = .error (.unknownOpcode w) := by
    rw [ha, decode_of_unknown (decodeOp_unknown hw)]
  exact step_of_unknown hs hd

/-- Moving the IP, not below its sentinel, leaves a step enabled (R26, R71). -/
theorem State.Enabled.atIp (hs : s.Enabled) {i : Int} (hlow : -1 ≤ i) : (s.atIp i).Enabled :=
  ⟨hs.running, hs.noDebug, hlow⟩

/-- Settles O18: the word is skipped, and the state after it is enabled with the words after it ahead. -/
theorem unknownOpcodeIgnored : Obligations.UnknownOpcodeIgnored := by
  intro s w rest hs hp ha hw
  have hlow := hs.ipLow
  have hrest : (s.atIp (s.ip + 1)).ahead = rest := ahead_advance hlow ha
  have hnext : (s.atIp (s.ip + 1)).Enabled := hs.atIp (by omega)
  exact ⟨_, (step_of_ahead_unknown hs ha hw).trans (execUnknown_of_ignore (s := s.atIp (s.ip + 1)) hp w), rfl,
    hrest, fun hnil => step_of_no_word hnext (hrest.trans hnil)⟩

/-- Settles O19: the exception is raised on the state whose IP is at the word. -/
theorem unknownOpcodeFaults : Obligations.UnknownOpcodeFaults := by
  intro s w rest hs hp ha hw
  exact (step_of_ahead_unknown hs ha hw).trans (execUnknown_of_fault (s := s.atIp (s.ip + 1)) hp w)

end Sys2Proof.Machine
end

section
/-! The exceptions (R108 to R112): what a faulting step has changed, and what the fault ports show of it. -/

namespace Sys2Proof.Machine

variable {s t : State}

/-! ### A step that ends in Faulted (R110, R111) -/

/-- From Running only the two exceptions end in Faulted, and each is raised on the old state with the IP moved on. -/
theorem StepsTo.eq_raiseFault (hr : s.runState = .running) (h : StepsTo s t) (hf : t.runState = .faulted) :
    ∃ c w, t = raiseFault c w (s.atIp t.ip) := by
  cases h with
  | truncated => exact ⟨.programTruncated, 0, rfl⟩
  | refuses => exact ⟨.unknownOpcode, _, rfl⟩
  | assigns => simp [hr] at hf
  | prints => simp [hr] at hf
  | ignores => simp [hr] at hf
  | halts => cases hf
  | exhausts => cases hf

/-- Settles O21: raising the exception writes the run state and the record; before that only the IP moved. -/
theorem faultsArePrecise : Obligations.FaultsArePrecise := by
  intro s t hstep hf
  obtain ⟨hs, hto⟩ := step_inversion hstep
  have hlt : s.ip < t.ip := hto.ip_lt hs (by simp [hf])
  obtain ⟨c, w, ht⟩ := hto.eq_raiseFault hs.running hf
  have hrecord : t.fault = some { cause := c, fip := t.ip, fword := w } := congrArg State.fault ht
  exact ⟨by rw [hrecord]; exact ht, hlt, _, hrecord, rfl⟩

/-! ### The fault ports (R112) -/

/-- The ports after an exception on a state with nothing new in its output: the record field by field, and no event. -/
theorem ports_raiseFault (c : Cause) (w : Word) (hout : t.out = s.out) :
    (ports s (raiseFault c w t)).runState = .faulted ∧
    (ports s (raiseFault c w t)).faultCause = causeCode c ∧
    (ports s (raiseFault c w t)).faultIp = some t.ip ∧
    (ports s (raiseFault c w t)).faultWord = some w ∧
    (ports s (raiseFault c w t)).outEvent = none :=
  ⟨rfl, rfl, rfl, rfl, by simp [ports, hout]⟩

/-- Settles O51: the state that each exception answers, and what the ports show of its record. -/
theorem faultPortsShowTheCause : Obligations.FaultPortsShowTheCause := by
  intro s hs
  refine ⟨fun hd => ⟨_, step_of_truncated hs hd, ports_raiseFault .programTruncated 0 rfl⟩, fun w hd hp => ?_⟩
  have hstep : step s = .next (raiseUnknownOpcode w (s.atIp (s.ip + 1))) :=
    (step_of_unknown hs hd).trans (execUnknown_of_fault (s := s.atIp (s.ip + 1)) hp w)
  exact ⟨_, hstep, ports_raiseFault .unknownOpcode w rfl⟩

end Sys2Proof.Machine
end

section
/-! Construction and the host's `load` (R125, R127, R130): what `load` answers on either side of the first step, and that
both give a state with the invariant. -/

namespace Sys2Proof.Machine

variable {s t : State}

/-! ### What `load` answers (R127, D12) -/

theorem beforeFirstStep_iff : beforeFirstStep s = true ↔ s.ip = -1 ∧ s.runState = .running := by
  simp [beforeFirstStep]

theorem hostLoad_of_beforeFirstStep (hip : s.ip = -1) (hr : s.runState = .running) (p : List Word) :
    hostLoad p s = .next { s with program := p } :=
  if_pos (beforeFirstStep_iff.2 ⟨hip, hr⟩)

theorem hostLoad_of_afterFirstStep (h : s.runState = .running → s.ip ≠ -1) (p : List Word) :
    hostLoad p s = .refused .loadAfterFirstStep :=
  if_neg fun hb =>
    have ⟨hip, hr⟩ := beforeFirstStep_iff.1 hb
    h hr hip

/-- The inversion of `load`: no step has been taken, and the program alone is replaced. -/
theorem hostLoad_inversion {p : List Word} (h : hostLoad p s = .next t) :
    s.ip = -1 ∧ s.runState = .running ∧ t = { s with program := p } := by
  by_cases hb : s.runState = .running → s.ip ≠ -1
  · rw [hostLoad_of_afterFirstStep hb] at h
    cases h
  · obtain ⟨hr, hip⟩ : s.runState = .running ∧ s.ip = -1 := by simpa using hb
    rw [hostLoad_of_beforeFirstStep hip hr] at h
    cases h
    exact ⟨hip, hr, rfl⟩

/-- Settles O9: the loaded state is still before its first step, so the second `load` answers as the first. -/
theorem loadReplacesTheProgramOnly : Obligations.LoadReplacesTheProgramOnly := by
  intro s p hip hr
  exact ⟨_, hostLoad_of_beforeFirstStep hip hr p, rfl, memRead_natCast _, hostLoad_of_beforeFirstStep hip hr⟩

/-- Settles O10: a step that stays Running moved the IP up from at least -1; after any other one `load` finds the run
state terminal. -/
theorem loadRefusedAfterAStep : Obligations.LoadRefusedAfterAStep := by
  intro s t p hstep
  obtain ⟨hs, hto⟩ := step_inversion hstep
  refine hostLoad_of_afterFirstStep (fun hr => ?_) p
  have hlow := hs.ipLow
  have hlt : s.ip < t.ip := hto.ip_lt hs (by simp [hr])
  omega

/-! ### The invariant before the first step -/

/-- The IP before the start is below the length of any program, so the program may be replaced (R26). -/
theorem State.Inv.after_load (h : s.Inv) (hip : s.ip = -1) (hr : s.runState = .running) (p : List Word) :
    State.Inv { s with program := p } :=
  have hin : s.ip < p.length := by omega
  { cfgOk := h.cfgOk
    regsOk := h.regsOk
    writtenOk := h.writtenOk
    regsKnown := h.regsKnown
    ipLow := h.ipLow
    ipHigh := hin.le
    ipInside := fun _ => hin
    atTheEnd := by simp [hr]
    faultOk := faultFits_of_none (h.fault_eq_none hr) (by simp [hr])
    logsOk := h.logsOk
    outOk := outFits_of_notMem (h.haltNotice_notMem hr) (by simp [hr]) }

/-- Settles O46: every part of the invariant at the values of R125. -/
theorem freshStateHasInvariant : Obligations.FreshStateHasInvariant := fun _ hcfg =>
  { cfgOk := hcfg
    regsOk := reset_x_wf
    writtenOk := reset_written_wf
    regsKnown := by simp [State.fresh]
    ipLow := le_rfl
    ipHigh := by simp [State.fresh, progLen]
    ipInside := by simp [State.fresh, progLen]
    atTheEnd := by simp [State.fresh]
    faultOk := faultFits_of_none rfl (by simp [State.fresh])
    logsOk := rfl
    outOk := outFits_of_notMem (by simp [State.fresh]) (by simp [State.fresh]) }

/-- Settles O47: where `load` answers, the state is before its first step. -/
theorem loadKeepsInvariant : Obligations.LoadKeepsInvariant := by
  intro s t p hinv hload
  obtain ⟨hip, hr, rfl⟩ := hostLoad_inversion hload
  exact hinv.after_load hip hr p

end Sys2Proof.Machine
end

section
/-! Register files in canonical form (R20, R21; log entry 4): reading, and being listed, say the same. -/

namespace Sys2Proof.Machine

theorem RegFile.get_eq_zero_of_notMem {x : RegFile} {k : RegKey} (h : ∀ e ∈ x, e.1 ≠ k) : x.get k = 0 := by
  induction x with
  | nil => rfl
  | cons e x ih =>
    obtain ⟨he, hx⟩ := List.forall_mem_cons.1 h
    rw [RegFile.get, if_neg (Ne.symm he), ih hx]

/-- Rising keys list no key twice, so an entry is what its key reads. -/
theorem RegFile.get_of_mem {x : RegFile} (hx : x.Pairwise (fun a b => a.1.toNat < b.1.toNat)) {e : RegKey × Value}
    (he : e ∈ x) : x.get e.1 = e.2 := by
  induction x with
  | nil => cases he
  | cons a x ih =>
    obtain ⟨ha, hx⟩ := List.pairwise_cons.1 hx
    rcases List.mem_cons.1 he with rfl | he
    · rw [RegFile.get, if_pos rfl]
    · have hne : e.1 ≠ a.1 := fun h => (ha e he).ne' (congrArg BitVec.toNat h)
      rw [RegFile.get, if_neg hne, ih hx he]

/-- In canonical form the entries are the registers that are not 0. -/
theorem RegFile.mem_iff_get {x : RegFile} (h : x.wf) (e : RegKey × Value) :
    e ∈ x ↔ x.get e.1 = e.2 ∧ e.2 ≠ 0 := by
  obtain ⟨hrising, hnonzero⟩ := (RegFile.wf_iff x).1 h
  refine ⟨fun he => ⟨RegFile.get_of_mem hrising he, hnonzero e he⟩, fun ⟨hget, hne⟩ => ?_⟩
  obtain ⟨a, ha, hkey⟩ : ∃ a ∈ x, a.1 = e.1 := by
    by_contra hnone
    exact hne (hget ▸ RegFile.get_eq_zero_of_notMem fun a ha hkey => hnone ⟨a, ha, hkey⟩)
  have hval : a.2 = e.2 := by rw [← RegFile.get_of_mem hrising ha, hkey, hget]
  rwa [← Prod.ext hkey hval]

/-- Settles O27: files that read alike have the same entries, and the rising keys fix their order. -/
theorem registerFileIsCanonical : Obligations.RegisterFileIsCanonical := by
  refine ⟨fun x y hx hy hget => ?_, RegFile.wf_set⟩
  have hmem : ∀ e, e ∈ x ↔ e ∈ y := fun e => by rw [RegFile.mem_iff_get hx, RegFile.mem_iff_get hy, hget]
  have : Std.Irrefl fun a b : RegKey × Value => a.1.toNat < b.1.toNat := ⟨fun _ => lt_irrefl _⟩
  have : Std.Antisymm fun a b : RegKey × Value => a.1.toNat < b.1.toNat := ⟨fun _ _ h h' => absurd h' h.asymm⟩
  exact hx.1.eq_of_mem_iff hy.1 hmem

end Sys2Proof.Machine
end

section
/-! Byte images of a program (R41, D13): four bytes a word, in either order. -/

namespace Sys2Proof.Machine

variable (order : ByteOrder)

/-! ### One word -/

theorem bytesOfWord_big (w : Word) : bytesOfWord .big w = (bytesOfWord .little w).reverse := rfl

theorem wordOfBytes_big (b0 b1 b2 b3 : Byte) : wordOfBytes .big b0 b1 b2 b3 = wordOfBytes .little b3 b2 b1 b0 := rfl

/-- Above its lowest byte a concatenation holds its other bits. -/
theorem extractLsb'_above_byte {n start : Nat} (high : BitVec n) (low : Byte) :
    (high ++ low).extractLsb' (start + 8) 8 = high.extractLsb' start 8 :=
  BitVec.extractLsb'_append_eq_of_le (Nat.le_add_left ..)

theorem bytesOfWord_wordOfBytes_little (b0 b1 b2 b3 : Byte) :
    bytesOfWord .little (wordOfBytes .little b0 b1 b2 b3) = [b0, b1, b2, b3] := by
  have h0 : (b3 ++ b2 ++ b1 ++ b0).extractLsb' 0 8 = b0 := BitVec.extractLsb'_append_eq_right
  have h1 : (b3 ++ b2 ++ b1 ++ b0).extractLsb' 8 8 = b1 :=
    (extractLsb'_above_byte _ b0).trans BitVec.extractLsb'_append_eq_right
  have h2 : (b3 ++ b2 ++ b1 ++ b0).extractLsb' 16 8 = b2 :=
    (extractLsb'_above_byte _ b0).trans ((extractLsb'_above_byte _ b1).trans BitVec.extractLsb'_append_eq_right)
  have h3 : (b3 ++ b2 ++ b1 ++ b0).extractLsb' 24 8 = b3 :=
    (extractLsb'_above_byte _ b0).trans ((extractLsb'_above_byte _ b1).trans BitVec.extractLsb'_append_eq_left)
  simp only [bytesOfWord, wordOfBytes, h0, h1, h2, h3]

theorem bytesOfWord_wordOfBytes (b0 b1 b2 b3 : Byte) :
    bytesOfWord order (wordOfBytes order b0 b1 b2 b3) = [b0, b1, b2, b3] := by
  cases order with
  | little => exact bytesOfWord_wordOfBytes_little b0 b1 b2 b3
  | big => rw [bytesOfWord_big, wordOfBytes_big, bytesOfWord_wordOfBytes_little]; rfl

/-- A word is its four bytes, the most significant one first. -/
theorem append_extractLsb'_bytes (w : Word) :
    w.extractLsb' 24 8 ++ w.extractLsb' 16 8 ++ w.extractLsb' 8 8 ++ w.extractLsb' 0 8 = w := by
  rw [BitVec.extractLsb'_append_extractLsb'_eq_extractLsb' (by rfl),
    BitVec.extractLsb'_append_extractLsb'_eq_extractLsb' (by rfl),
    BitVec.extractLsb'_append_extractLsb'_eq_extractLsb' (by rfl)]
  exact BitVec.extractLsb'_eq_self

/-- The four bytes of a word make the word again. -/
theorem exists_bytesOfWord (w : Word) :
    ∃ b0 b1 b2 b3, bytesOfWord order w = [b0, b1, b2, b3] ∧ wordOfBytes order b0 b1 b2 b3 = w := by
  cases order with
  | little => exact ⟨_, _, _, _, rfl, append_extractLsb'_bytes w⟩
  | big => exact ⟨_, _, _, _, rfl, append_extractLsb'_bytes w⟩

theorem bytesOfWord_length (w : Word) : (bytesOfWord order w).length = 4 := by
  cases order <;> rfl

/-- Byte `k` of a word in the little order, bits `8k+7` to `8k` (log entry 26). -/
theorem getElem?_bytesOfWord_little (w : Word) {k : Nat} (hk : k < 4) :
    (bytesOfWord .little w)[k]? = some (w.extractLsb' (8 * k) 8) := by
  match k, hk with
  | 0, _ | 1, _ | 2, _ | 3, _ => rfl

/-- Byte `k` of a word in the big order, bits `31-8k` to `24-8k` (log entry 26). -/
theorem getElem?_bytesOfWord_big (w : Word) {k : Nat} (hk : k < 4) :
    (bytesOfWord .big w)[k]? = some (w.extractLsb' (24 - 8 * k) 8) := by
  match k, hk with
  | 0, _ | 1, _ | 2, _ | 3, _ => rfl

/-! ### A whole image -/

theorem imageOfWords_cons (w : Word) (ws : List Word) :
    imageOfWords order (w :: ws) = bytesOfWord order w ++ imageOfWords order ws := List.flatMap_cons

theorem imageOfWords_length (ws : List Word) : (imageOfWords order ws).length = 4 * ws.length := by
  induction ws with
  | nil => rfl
  | cons w ws ih =>
    rw [imageOfWords_cons, List.length_append, bytesOfWord_length, ih, List.length_cons]
    omega

theorem wordsOfImage_imageOfWords (ws : List Word) : wordsOfImage order (imageOfWords order ws) = some ws := by
  induction ws with
  | nil => rfl
  | cons w ws ih =>
    obtain ⟨b0, b1, b2, b3, hbytes, hword⟩ := exists_bytesOfWord order w
    rw [imageOfWords_cons, hbytes]
    simp [wordsOfImage, ih, hword]

/-- Whole words are all that an image needs: it is then the image of some program. -/
theorem exists_eq_imageOfWords : ∀ {bytes : List Byte}, 4 ∣ bytes.length → ∃ ws, bytes = imageOfWords order ws
  | [], _ => ⟨[], rfl⟩
  | b0 :: b1 :: b2 :: b3 :: rest, h => by
    obtain ⟨ws, rfl⟩ : ∃ ws, rest = imageOfWords order ws := exists_eq_imageOfWords (by simpa using h)
    exact ⟨wordOfBytes order b0 b1 b2 b3 :: ws, by rw [imageOfWords_cons, bytesOfWord_wordOfBytes]; rfl⟩
  | [_], h | [_, _], h | [_, _, _], h => by simp at h

/-- An image that is not made of whole words holds no program (log entry 21). -/
theorem dvd_length_of_wordsOfImage {bytes : List Byte} {ws : List Word} (h : wordsOfImage order bytes = some ws) :
    4 ∣ bytes.length := by
  fun_induction wordsOfImage order bytes generalizing ws with
  | case1 => simp
  | case2 b0 b1 b2 b3 rest ih =>
    obtain ⟨ws', hrest, -⟩ := Option.map_eq_some_iff.1 h
    simpa using ih hrest
  | case3 => cases h

/-- An image holds a program exactly when it is that program's image. -/
theorem wordsOfImage_eq_some_iff {bytes : List Byte} {ws : List Word} :
    wordsOfImage order bytes = some ws ↔ bytes = imageOfWords order ws := by
  refine ⟨fun h => ?_, fun h => h ▸ wordsOfImage_imageOfWords order ws⟩
  obtain ⟨ws', rfl⟩ := exists_eq_imageOfWords order (dvd_length_of_wordsOfImage order h)
  rw [wordsOfImage_imageOfWords] at h
  rw [Option.some.inj h]

theorem isSome_wordsOfImage_iff (bytes : List Byte) : (wordsOfImage order bytes).isSome ↔ 4 ∣ bytes.length := by
  rw [Option.isSome_iff_exists]
  refine ⟨fun ⟨_, h⟩ => dvd_length_of_wordsOfImage order h, fun h => ?_⟩
  obtain ⟨ws, rfl⟩ := exists_eq_imageOfWords order h
  exact ⟨ws, wordsOfImage_imageOfWords order ws⟩

/-- The bytes of word `i` stand from index `4i` on. -/
theorem getElem?_imageOfWords {ws : List Word} {i k : Nat} {w : Word} (hw : ws[i]? = some w) (hk : k < 4) :
    (imageOfWords order ws)[4 * i + k]? = (bytesOfWord order w)[k]? := by
  induction ws generalizing i with
  | nil => simp at hw
  | cons a ws ih =>
    rw [imageOfWords_cons]
    cases i with
    | zero =>
      obtain rfl : a = w := by simpa using hw
      rw [Nat.mul_zero, Nat.zero_add, List.getElem?_append_left (by rwa [bytesOfWord_length])]
    | succ i =>
      have hindex : 4 * (i + 1) + k = (bytesOfWord order a).length + (4 * i + k) := by
        rw [bytesOfWord_length]
        omega
      rw [hindex, List.getElem?_append_right (Nat.le_add_right ..), Nat.add_sub_cancel_left, ih (by simpa using hw)]

/-- Settles O12: the round trips of images, and the place of each byte of each word. -/
theorem byteImageHoldsTheProgram : Obligations.ByteImageHoldsTheProgram := by
  refine ⟨fun order ws => ⟨wordsOfImage_imageOfWords order ws, imageOfWords_length order ws⟩,
    fun order bytes => ⟨isSome_wordsOfImage_iff order bytes, fun _ => (wordsOfImage_eq_some_iff order).1⟩,
    fun ws i w k hw hk => ⟨?_, ?_⟩⟩
  · rw [getElem?_imageOfWords .little hw hk, getElem?_bytesOfWord_little w hk]
  · rw [getElem?_imageOfWords .big hw hk, getElem?_bytesOfWord_big w hk]

end Sys2Proof.Machine
end

section
/-! The text of the two streams (R99, R101): the decimal digits of a value's line, and one line for each exhaustion. -/

namespace Sys2Proof.Machine

/-! ### Decimal digits (R99, D10) -/

/-- The decimal digits of a number as numbers, most significant first, with one digit for 0. -/
def decimalPlaces (n : Nat) : List Nat := if n = 0 then [0] else (Nat.digits 10 n).reverse

theorem decimalPlaces_zero : decimalPlaces 0 = [0] := rfl

theorem decimalPlaces_of_ne_zero {n : Nat} (h : n ≠ 0) : decimalPlaces n = (Nat.digits 10 n).reverse := if_neg h

theorem decimalPlaces_of_lt {n : Nat} (h : n < 10) : decimalPlaces n = [n] := by
  by_cases h0 : n = 0
  · rw [h0, decimalPlaces_zero]
  · rw [decimalPlaces_of_ne_zero h0, Nat.digits_of_lt 10 n h0 h, List.reverse_singleton]

theorem decimalPlaces_of_ge {n : Nat} (h : 10 ≤ n) : decimalPlaces n = decimalPlaces (n / 10) ++ [n % 10] := by
  rw [decimalPlaces_of_ne_zero (by omega), decimalPlaces_of_ne_zero (by omega),
    Nat.digits_def' (by decide) (by omega), List.reverse_cons]

/-- With digits enough for the number, the model's characters are those of its decimal places. -/
theorem decimalDigits_eq_map (fuel : Nat) {n : Nat} (h : n < 10 ^ (fuel + 1)) :
    decimalDigits (fuel + 1) n = (decimalPlaces n).map digitChar := by
  induction fuel generalizing n with
  | zero =>
    have hn : n < 10 := by simpa using h
    rw [decimalDigits, if_pos hn, decimalPlaces_of_lt hn, List.map_singleton]
  | succ fuel ih =>
    rw [decimalDigits]
    by_cases hn : n < 10
    · rw [if_pos hn, decimalPlaces_of_lt hn, List.map_singleton]
    · have hdiv : n / 10 < 10 ^ (fuel + 1) := Nat.div_lt_of_lt_mul (by rwa [← Nat.pow_succ'])
      rw [if_neg hn, ih hdiv, decimalPlaces_of_ge (not_lt.1 hn), List.map_append, List.map_singleton]

theorem lt_ten_of_mem_decimalPlaces {n d : Nat} (h : d ∈ decimalPlaces n) : d < 10 := by
  by_cases h0 : n = 0
  · rw [h0, decimalPlaces_zero, List.mem_singleton] at h
    omega
  · rw [decimalPlaces_of_ne_zero h0, List.mem_reverse] at h
    exact Nat.digits_lt_base (by decide) h

/-- The places name the number. -/
theorem foldl_decimalPlaces (n : Nat) : (decimalPlaces n).foldl (fun n d => 10 * n + d) 0 = n := by
  by_cases h0 : n = 0
  · rw [h0]; rfl
  · calc (decimalPlaces n).foldl (fun n d => 10 * n + d) 0
      _ = (Nat.digits 10 n).foldr (fun d n => d + 10 * n) 0 := by
        simp [decimalPlaces_of_ne_zero h0, List.foldl_reverse, Nat.add_comm]
      _ = Nat.ofDigits 10 (Nat.digits 10 n) := (Nat.ofDigits_eq_foldr 10 _).symm
      _ = n := Nat.ofDigits_digits 10 n

theorem decimalPlaces_ne_nil (n : Nat) : decimalPlaces n ≠ [] := by
  by_cases h0 : n = 0
  · rw [h0]; exact List.cons_ne_nil _ _
  · rw [decimalPlaces_of_ne_zero h0]
    exact mt List.reverse_eq_nil_iff.1 (Nat.digits_ne_nil_iff_ne_zero.2 h0)

/-- Only 0 itself has a leading zero. -/
theorem decimalPlaces_of_head?_zero {n : Nat} (h : (decimalPlaces n).head? = some 0) : decimalPlaces n = [0] := by
  by_cases h0 : n = 0
  · rw [h0, decimalPlaces_zero]
  · have hne : Nat.digits 10 n ≠ [] := Nat.digits_ne_nil_iff_ne_zero.2 h0
    rw [decimalPlaces_of_ne_zero h0, List.head?_reverse, List.getLast?_eq_some_getLast hne] at h
    exact absurd (Option.some.inj h) (Nat.getLast_digit_ne_zero 10 h0)

/-- Twenty digits hold every 64-bit magnitude (log entry 14). -/
theorem natAbs_toInt_lt (v : Value) : v.toInt.natAbs < 10 ^ 20 := by
  have hlow := BitVec.le_toInt v
  have hhigh := BitVec.toInt_lt (x := v)
  omega

/-- Settles O43: the digits are the decimal places of the magnitude, after a minus sign for a negative value. -/
theorem valueLineIsDecimal : Obligations.ValueLineIsDecimal := by
  intro v
  refine ⟨decimalPlaces v.toInt.natAbs, ?_, fun _ => lt_ten_of_mem_decimalPlaces, foldl_decimalPlaces _,
    decimalPlaces_ne_nil _, decimalPlaces_of_head?_zero⟩
  have hdigits : decimalDigits 20 v.toInt.natAbs = (decimalPlaces v.toInt.natAbs).map (fun d => Char.ofNat (48 + d)) :=
    decimalDigits_eq_map 19 (natAbs_toInt_lt v)
  rw [renderOutEvent, decimal, hdigits]
  by_cases hneg : v.toInt < 0
  · rw [if_pos hneg, if_pos hneg]; rfl
  · rw [if_neg hneg, if_neg hneg]; rfl

/-! ### The exhaustion line (R101, D19) -/

/-- The text's own newlines are dropped, so the one at the end is the only one (log entry 13). -/
theorem count_newline_renderLogEvent (e : LogEvent) : (renderLogEvent e).count '\n' = 1 := by
  cases e
  have hdropped : (Config.exhaustLogText.filter (fun c => c ≠ '\n')).count '\n' = 0 :=
    List.count_eq_zero.2 (by simp)
  rw [renderLogEvent, List.count_append, hdropped]
  rfl

theorem getLast?_renderLogEvent (e : LogEvent) : (renderLogEvent e).getLast? = some '\n' := by
  cases e
  exact List.getLast?_concat

theorem renderLogs_append (logs logs' : List LogEvent) :
    renderLogs (logs ++ logs') = renderLogs logs ++ renderLogs logs' :=
  List.flatMap_append

theorem renderLogs_singleton (e : LogEvent) : renderLogs [e] = renderLogEvent e := List.flatMap_singleton _ e

/-- Settles O45: each event brings one newline, at the end of its line. -/
theorem exhaustionIsOneLogLine : Obligations.ExhaustionIsOneLogLine := by
  intro logs
  induction logs using List.reverseRecOn with
  | nil => exact ⟨rfl, absurd rfl⟩
  | append_singleton logs e ih =>
    rw [renderLogs_append, renderLogs_singleton]
    refine ⟨?_, fun _ => ?_⟩
    · rw [List.count_append, ih.1, count_newline_renderLogEvent, List.length_append, List.length_singleton]
    · rw [List.getLast?_append, getLast?_renderLogEvent, Option.some_or]

end Sys2Proof.Machine
end

section
/-! Words of the reference binding (R55 to R69), what construction leaves and refuses (R125, R137), and the step at the
end of the program (R72). -/

namespace Sys2Proof.Machine

/-- Settles O5: each opcode word selects its opcode, and the operand words name their keys. -/
theorem specWordsDecode : Obligations.SpecWordsDecode :=
  have hopc : Opc.ref.wf := by decide
  ⟨decode_of_load (decodeOp_load Opc.ref) _ _ _, decode_of_load (decodeOp_load Opc.ref) _ _ _,
    decode_of_add (decodeOp_add hopc) _ _ _, decode_of_subtract (decodeOp_subtract hopc) _ _ _,
    decode_of_print (decodeOp_print hopc) _ _, decode_of_halt (decodeOp_halt hopc) _,
    decode_of_unknown (decodeOp_unknown (by decide)) _, decode_of_short (by decide)⟩

theorem fresh_stack (cfg : LaunchConfig) (i : Fin 128) : (State.fresh cfg).stack[i] = 0 :=
  Vector.getElem_replicate _

/-- Settles O7: the fields of the fresh machine, each as it is made; an empty register file reads 0. -/
theorem resetValues : Obligations.ResetValues := by
  refine ⟨rfl, ?_⟩
  rintro cfg _ rfl
  exact ⟨fun _ => rfl, rfl, rfl, rfl, rfl, fresh_stack cfg, rfl, rfl, rfl, rfl, rfl⟩

theorem hostConstruct_of_debug {cfg : LaunchConfig} (h : cfg.debug = true) :
    hostConstruct cfg = .refused .debugDump := if_pos h

theorem hostConstruct_of_noDebug {cfg : LaunchConfig} (h : cfg.debug = false) :
    hostConstruct cfg = .next (State.fresh cfg) := if_neg (by simp [h])

/-- Settles O8: construction tests `DEBUG`, and so does the start of a step in Running. -/
theorem debugIsRefused : Obligations.DebugIsRefused :=
  ⟨fun _ => hostConstruct_of_debug, fun _ => hostConstruct_of_noDebug, fun _ hdebug hr => step_of_debug hr hdebug⟩

/-- Past the last index no word is ahead (R72). -/
theorem ahead_eq_nil_of_progLen_le {s : State} (hlow : -1 ≤ s.ip) (h : progLen s ≤ s.ip + 1) : s.ahead = [] := by
  by_contra hne
  have hlt : s.ip + 1 < progLen s := (ahead_ne_nil_iff hlow).1 hne
  omega

/-- Settles O16: where no word is ahead the step is the exhaustion. -/
theorem stepExhaustsAtTheEnd : Obligations.StepExhaustsAtTheEnd := fun _ hs hend =>
  step_of_no_word hs (ahead_eq_nil_of_progLen_le hs.ipLow hend)

end Sys2Proof.Machine
end
